-- ==== Sys2Proof/Word.lean ====
section
/-! DEFINITION. Word.lean: the plain data the block's ports and its register carry (00_scope.md section 4,
30_encoding.md rules R79 to R84): bit strings, hex strings, the 32-bit word, and the port bundles. -/

namespace Sys2Proof

/-- The 32-bit instruction word on a hardware vector, bit 0 the least significant (R7, R13). -/
abbrev Word := BitVec 32

/-- A bit string, most significant bit first: the head of the list is `s⟨0⟩` (R12). -/
abbrev BitString := List Bool

/-- One 8-bit character slot of the hex port (R84). -/
abbrev HexChar := BitVec 8

/-- An integer port: a 33-bit two's-complement vector (R10, R83). -/
abbrev IntPort := BitVec 33

/-- A bit-string port: a 6-bit length and 32 data bits (R81). -/
structure BitsPort where
  len : BitVec 6
  data : BitVec 32
deriving DecidableEq, Repr, Inhabited

/-- A hex port: a 4-bit length and eight 8-bit character slots (R84). -/
structure HexPort where
  len : BitVec 4
  ch : Vector HexChar 8
deriving DecidableEq, Repr, Inhabited

/-- Interpretation mode (R18): the mode bit is 0 for Unsigned and 1 for Signed. -/
inductive Mode where
  | unsigned
  | signed
deriving DecidableEq, Repr, Inhabited

/-- Extension kind of BEXT, the source's `signExtend` flag (R80): 0 zero, 1 sign. -/
inductive ExtKind where
  | zero
  | sign
deriving DecidableEq, Repr, Inhabited

/-- The three instruction-word formats (R2, R23, R70). There is no fourth: code 3 is never held. -/
inductive Fmt where
  | R
  | I
  | J
deriving DecidableEq, Repr, Inhabited

/-- Lifecycle status of the instruction value (R22). -/
inductive Status where
  | empty
  | filled
  | composed
  | invalid
deriving DecidableEq, Repr, Inhabited

/-- Which constructor made the instruction value (R24). Code 3 is never held. -/
inductive Src where
  | dec
  | bits
  | hex
deriving DecidableEq, Repr, Inhabited

/-- The named fields of the three layouts (R8, glossary of 00_scope.md). -/
inductive Field where
  | op
  | rs
  | rt
  | rd
  | shamt
  | funct
  | immediate
  | address
deriving DecidableEq, Repr, Inhabited

end Sys2Proof
end

