-- ==== Sys2Proof/Config.lean ====
section
/-! DEFINITION. Config.lean: the block's parameters (00_scope.md section 3) and its free values: what the spec says
holds "any value" (R21, R27, R28, R36, R82; decisions D10, D16, D22, D29). A free value has no body, so nothing can be
proved about which value it is; each is applied to the counter `State.free` of the model (and to a slot number where
there are six slots). DESIGN CHOICE, log entry 1. -/

namespace Sys2Proof

/-- `WORD_W`, the instruction word's width (R7). -/
abbrev Config.WORD_W : Nat := 32

/-- `HEX_DIGITS`, the digits of a full word (R7). -/
abbrev Config.HEX_DIGITS : Nat := 8

/-- `WMAX`, the longest bit string on a primitive's port (R9). -/
abbrev Config.WMAX : Nat := 32

/-- `LEN_W`, the width of a length field on a port (R9). -/
abbrev Config.LEN_W : Nat := 6

/-- `INT_W`, the width of an integer port (R10). -/
abbrev Config.INT_W : Nat := 33

/-- `BYTE_ORDER`, OPEN and outside the block (R52, D21): which byte of a word (byte 3 the most significant) a system
outside lays at each of four rising addresses. No rule reads it, and nothing in this model does (log entry 13). -/
opaque Config.BYTE_ORDER : Equiv.Perm (Fin 4)

/-- Any format tag (R27: `iv.fmt` after a failed fill or decode, or after reset). -/
opaque Config.freeFmt : Nat → Fmt

/-- Any source tag (R27). -/
opaque Config.freeSrc : Nat → Src

/-- Any mode bit (R27). -/
opaque Config.freeMode : Nat → Mode

/-- Any 33-bit pattern of a decimal slot (R21 dead slots, R27): the counter, then the slot. -/
opaque Config.freeDec : Nat → Nat → IntPort

/-- Any bit string of a field slot (R21 dead slots, R27), cut to the slot's width where it is used. -/
opaque Config.freeFb : Nat → Nat → BitString

/-- Any word (R27, R28: `iv.word` of a value that is not composed). -/
opaque Config.freeWord : Nat → Word

/-- Whatever the bit-string result port carries when it is not written (R82). -/
opaque Config.freeRb : Nat → BitsPort

/-- Whatever the integer result port carries when it is not written (R82). -/
opaque Config.freeRi : Nat → IntPort

/-- Whatever the hex result port carries when it is not written (R82). -/
opaque Config.freeRh : Nat → HexPort

end Sys2Proof
end

