-- ==== Sys2Proof/Syntax.lean ====
section
/-! DEFINITION. Syntax.lean: the request a requester presents (30_encoding.md rule R79), the operands a command reads
once they are off the ports (R81, R83, R84), and the commands: one constructor per row of spec/opcode_table.json, holding
exactly the operands rule R87 says the command reads. -/

namespace Sys2Proof

/-- One request on the block's ports (R79). -/
structure Request where
  cmd : BitVec 5
  mode : BitVec 1
  a : BitsPort
  t : BitVec 6
  v : IntPort
  h : HexPort
  fd : Vector IntPort 6
  fbits : Vector BitsPort 6
deriving DecidableEq, Repr, Inhabited

/-- A bit-string operand (R81): a string the port can hold, or a length of 33 to 63, whose data is meaningless. DEDUCED,
log entry 7. -/
inductive BitsOperand where
  | str (s : BitString)
  | overlong (len : Nat)
deriving DecidableEq, Repr, Inhabited

/-- A hex operand (R84): the characters of slots 0 to n-1, or a length of 9 to 15, which names more digits than the
port holds. DEDUCED, log entry 7. -/
inductive HexOperand where
  | str (cs : List HexChar)
  | overlong (len : Nat)
deriving DecidableEq, Repr, Inhabited

/-- The commands (R85) and the reserved codes (R86), with the operands each reads (R87). Integer operands are
mathematical integers (R10, R15); `t` and `n` are the 6-bit target length and digit count. -/
inductive Instr where
  | ones (a : BitsOperand)
  | twos (a : BitsOperand)
  | bext (a : BitsOperand) (t : Nat) (x : ExtKind)
  | d2b (v : Int) (t : Nat)
  | b2d (a : BitsOperand) (m : Mode)
  | h2b (h : HexOperand)
  | b2h (a : BitsOperand)
  | h2d (h : HexOperand) (m : Mode)
  | d2h (v : Int) (n : Nat)
  | filldR (op rs rt rd shamt funct : Int)
  | filldI (op rs rt imm : Int)
  | filldJ (op address : Int)
  | fillbR (op rs rt rd shamt funct : BitsOperand) (m : Mode)
  | fillbI (op rs rt imm : BitsOperand) (m : Mode)
  | fillbJ (op address : BitsOperand)
  | composeR
  | composeI
  | composeJ
  | decodeR (h : HexOperand) (m : Mode)
  | decodeI (h : HexOperand) (m : Mode)
  | decodeJ (h : HexOperand)
  | reserved09
  | reserved0A
  | reserved0B
  | reserved0C
  | reserved0D
  | reserved0E
  | reserved0F
  | reserved13
  | reserved17
  | reserved1B
  | reserved1F
deriving DecidableEq, Repr, Inhabited

end Sys2Proof
end

