-- ==== Sys2Proof/Machine/Bits.lean ====
section
/-! DEFINITION. Machine/Bits.lean: the notation of 00_scope.md section 4 as functions: the numeric value of a bit string,
its inverse, the minimal binary form, the two extensions, hex characters, and how strings stand on the output ports
(30_encoding.md rules R81, R83, R84). -/

namespace Sys2Proof

/-- `nat(s) = Σ s⟨i⟩ · 2^(n-1-i)` (R14). -/
def nat : BitString → Nat
  | [] => 0
  | b :: s => b.toNat * 2 ^ s.length + nat s

/-- `bits_n(k)`: the string of length `n` for `k` modulo `2^n`, most significant bit first (R14). -/
def bitsN : Nat → Nat → BitString
  | 0, _ => []
  | n + 1, k => k.testBit n :: bitsN n k

/-- `minbin(m)`: the shortest string with value `m`, "0" for zero (R14). -/
def minbin (m : Nat) : BitString :=
  if m = 0 then [false] else bitsN (m.log2 + 1) m

/-- `zext_N(s)` (R16). -/
def zext (N : Nat) (s : BitString) : BitString :=
  List.replicate (N - s.length) false ++ s

/-- `sext_N(s)` (R16): replicates `s⟨0⟩`; it is used on a non-empty string only. -/
def sext (N : Nat) (s : BitString) : BitString :=
  List.replicate (N - s.length) (s.headD false) ++ s

/-- One's complement: every bit flipped (R111). -/
def onesBits (a : BitString) : BitString := a.map (fun b => !b)

/-- Two's complement at the string's own width, the carry out discarded (R112). -/
def twosBits (a : BitString) : BitString :=
  bitsN a.length ((nat (onesBits a) + 1) % 2 ^ a.length)

/-- The value of a non-empty string in a mode (R117). -/
def valueOf (a : BitString) : Mode → Int
  | .unsigned => nat a
  | .signed => if a.headD false then -(nat (twosBits a) : Int) else nat a

/-- `chr(d)`: the lowercase ASCII character of a hex digit (R17, R84; the code values PRESUMED, log entry 11). -/
def chr (d : Nat) : HexChar :=
  if d < 10 then BitVec.ofNat 8 (0x30 + d) else BitVec.ofNat 8 (0x61 + (d - 10))

/-- `digit(c)`: the inverse of `chr` on exactly the sixteen lowercase digit characters (R17, R84). -/
def digit (c : HexChar) : Option Nat :=
  if 0x30 ≤ c.toNat ∧ c.toNat ≤ 0x39 then some (c.toNat - 0x30)
  else if 0x61 ≤ c.toNat ∧ c.toNat ≤ 0x66 then some (c.toNat - 0x61 + 10)
  else none

/-- The nibbles of a string, left to right (R53). -/
def nibbles : BitString → List BitString
  | a :: b :: c :: d :: rest => [a, b, c, d] :: nibbles rest
  | _ => []

/-- One lowercase digit per nibble (R53, R120). -/
def hexChars (s : BitString) : List HexChar := (nibbles s).map (fun q => chr (nat q))

/-- The 32 bits of a word as a string (R13). -/
def wordBits (w : Word) : BitString := bitsN 32 w.toNat

/-- A string of 32 bits on the word's vector (R13, R51). -/
def wordOf (s : BitString) : Word := BitVec.ofNat 32 (nat s)

/-- A bit string on an output port: the data bits above the length are driven to 0 (R81). -/
def BitsPort.ofString (s : BitString) : BitsPort :=
  ⟨BitVec.ofNat 6 s.length, BitVec.ofNat 32 (nat s)⟩

/-- An integer on its port, 33-bit two's complement (R83). -/
def IntPort.ofInt (v : Int) : IntPort := BitVec.ofInt 33 v

/-- A hex string on an output port: slots at or above the length are driven to 0x00 (R84). -/
def HexPort.ofString (cs : List HexChar) : HexPort :=
  ⟨BitVec.ofNat 4 cs.length,
    #v[cs.getD 0 0, cs.getD 1 0, cs.getD 2 0, cs.getD 3 0, cs.getD 4 0, cs.getD 5 0, cs.getD 6 0, cs.getD 7 0]⟩

/-- The mode bit's meaning where it is an interpretation mode (R18, R80). -/
def Mode.ofBit (b : BitVec 1) : Mode := if b = 1 then .signed else .unsigned

/-- The bit of an interpretation mode (R18, R24). -/
def Mode.bit : Mode → BitVec 1
  | .unsigned => 0
  | .signed => 1

/-- The mode bit's meaning for BEXT (R80). -/
def ExtKind.ofBit (b : BitVec 1) : ExtKind := if b = 1 then .sign else .zero

/-- The bit of an extension kind (R80). -/
def ExtKind.bit : ExtKind → BitVec 1
  | .zero => 0
  | .sign => 1

/-- The code of a format tag (R23). -/
def Fmt.code : Fmt → BitVec 2
  | .R => 0
  | .I => 1
  | .J => 2

/-- The code of a lifecycle status (R22). -/
def Status.code : Status → BitVec 2
  | .empty => 0
  | .filled => 1
  | .composed => 2
  | .invalid => 3

/-- The code of a source tag (R24). -/
def Src.code : Src → BitVec 2
  | .dec => 0
  | .bits => 1
  | .hex => 2

end Sys2Proof
end

