-- ==== Sys2Proof/WellFormed.lean ====
section
/-! DEFINITION. WellFormed.lean: which operands the ports can present (30_encoding.md rules R79, R81, R83, R84). A command
that is not well-formed cannot be presented to the block; its meaning is still total. -/

namespace Sys2Proof

/-- R81: a string of at most 32 bits, or an over-long length of 33 to 63. -/
def BitsOperand.wf : BitsOperand → Bool
  | .str s => decide (s.length ≤ 32)
  | .overlong n => decide (32 < n ∧ n < 64)

/-- R84: at most eight characters, or an over-long length of 9 to 15. -/
def HexOperand.wf : HexOperand → Bool
  | .str cs => decide (cs.length ≤ 8)
  | .overlong n => decide (8 < n ∧ n < 16)

/-- R83: an integer the 33-bit port can carry. -/
def intWf (v : Int) : Bool := decide (-(2 ^ 32) ≤ v ∧ v < 2 ^ 32)

/-- R79: a 6-bit length. -/
def lenWf (t : Nat) : Bool := decide (t < 64)

/-- Every operand of the command is one its port can carry. -/
def Instr.wf : Instr → Bool
  | .ones a => a.wf
  | .twos a => a.wf
  | .bext a t _ => a.wf && lenWf t
  | .d2b v t => intWf v && lenWf t
  | .b2d a _ => a.wf
  | .h2b h => h.wf
  | .b2h a => a.wf
  | .h2d h _ => h.wf
  | .d2h v n => intWf v && lenWf n
  | .filldR op rs rt rd shamt funct =>
    intWf op && intWf rs && intWf rt && intWf rd && intWf shamt && intWf funct
  | .filldI op rs rt imm => intWf op && intWf rs && intWf rt && intWf imm
  | .filldJ op address => intWf op && intWf address
  | .fillbR op rs rt rd shamt funct _ => op.wf && rs.wf && rt.wf && rd.wf && shamt.wf && funct.wf
  | .fillbI op rs rt imm _ => op.wf && rs.wf && rt.wf && imm.wf
  | .fillbJ op address => op.wf && address.wf
  | .composeR => true
  | .composeI => true
  | .composeJ => true
  | .decodeR h _ => h.wf
  | .decodeI h _ => h.wf
  | .decodeJ h => h.wf
  | .reserved09 => true
  | .reserved0A => true
  | .reserved0B => true
  | .reserved0C => true
  | .reserved0D => true
  | .reserved0E => true
  | .reserved0F => true
  | .reserved13 => true
  | .reserved17 => true
  | .reserved1B => true
  | .reserved1F => true

end Sys2Proof
end

