-- ==== Sys2Proof/Decode.lean ====
section
/-! DEFINITION. Decode.lean: from a request to the command it presents (30_encoding.md rules R79 to R87), the request as
one number of 577 bits (DESIGN CHOICE, log entry 3), and, after the decoder, the encoder. -/

namespace Sys2Proof

/-- R81 on input: `data[31:n]` is ignored; a length of 33 to 63 names a string longer than the port. -/
def BitsPort.operand (p : BitsPort) : BitsOperand :=
  if p.len.toNat ≤ Config.WMAX then .str (bitsN p.len.toNat p.data.toNat) else .overlong p.len.toNat

/-- R84 on input: slots at or above the length are ignored; a length of 9 to 15 names more digits than the port holds. -/
def HexPort.operand (p : HexPort) : HexOperand :=
  if p.len.toNat ≤ Config.HEX_DIGITS then .str (p.ch.toList.take p.len.toNat) else .overlong p.len.toNat

/-- The command code map (R85, R86) with the operands each command reads (R87). Every code has a row of the opcode
table, so decoding a request never fails. -/
def decode (r : Request) : Instr :=
  match r.cmd.toNat with
  | 0x00 => .ones r.a.operand
  | 0x01 => .twos r.a.operand
  | 0x02 => .bext r.a.operand r.t.toNat (ExtKind.ofBit r.mode)
  | 0x03 => .d2b r.v.toInt r.t.toNat
  | 0x04 => .b2d r.a.operand (Mode.ofBit r.mode)
  | 0x05 => .h2b r.h.operand
  | 0x06 => .b2h r.a.operand
  | 0x07 => .h2d r.h.operand (Mode.ofBit r.mode)
  | 0x08 => .d2h r.v.toInt r.t.toNat
  | 0x09 => .reserved09
  | 0x0A => .reserved0A
  | 0x0B => .reserved0B
  | 0x0C => .reserved0C
  | 0x0D => .reserved0D
  | 0x0E => .reserved0E
  | 0x0F => .reserved0F
  | 0x10 => .filldR r.fd[0].toInt r.fd[1].toInt r.fd[2].toInt r.fd[3].toInt r.fd[4].toInt r.fd[5].toInt
  | 0x11 => .filldI r.fd[0].toInt r.fd[1].toInt r.fd[2].toInt r.fd[3].toInt
  | 0x12 => .filldJ r.fd[0].toInt r.fd[1].toInt
  | 0x13 => .reserved13
  | 0x14 =>
    .fillbR r.fbits[0].operand r.fbits[1].operand r.fbits[2].operand r.fbits[3].operand r.fbits[4].operand
      r.fbits[5].operand (Mode.ofBit r.mode)
  | 0x15 =>
    .fillbI r.fbits[0].operand r.fbits[1].operand r.fbits[2].operand r.fbits[3].operand (Mode.ofBit r.mode)
  | 0x16 => .fillbJ r.fbits[0].operand r.fbits[1].operand
  | 0x17 => .reserved17
  | 0x18 => .composeR
  | 0x19 => .composeI
  | 0x1A => .composeJ
  | 0x1B => .reserved1B
  | 0x1C => .decodeR r.h.operand (Mode.ofBit r.mode)
  | 0x1D => .decodeI r.h.operand (Mode.ofBit r.mode)
  | 0x1E => .decodeJ r.h.operand
  | _ => .reserved1F

/-- How many bits a request has when its fields are laid end to end (R79): 5 + 1 + 38 + 6 + 33 + 68 + 6·33 + 6·38. -/
abbrev requestWidth : Nat := 577

/-- `width` bits of `n` from bit `lo` up. -/
def bitField (n lo width : Nat) : BitVec width := BitVec.ofNat width (n >>> lo)

/-- A bit-string port laid out from bit `lo` up: the length, then the data. -/
def bitsPortAt (n lo : Nat) : BitsPort := ⟨bitField n lo 6, bitField n (lo + 6) 32⟩

/-- A hex port laid out from bit `lo` up: the length, then slots 0 to 7. -/
def hexPortAt (n lo : Nat) : HexPort :=
  ⟨bitField n lo 4,
    #v[bitField n (lo + 4) 8, bitField n (lo + 12) 8, bitField n (lo + 20) 8, bitField n (lo + 28) 8,
      bitField n (lo + 36) 8, bitField n (lo + 44) 8, bitField n (lo + 52) 8, bitField n (lo + 60) 8]⟩

/-- The request a number stands for: the fields of R79 in that rule's order, the first at bit 0, so that the opcode
table's bits 4 to 0 are `cmd` (DESIGN CHOICE, log entry 3). -/
def Request.ofNat (n : Nat) : Request where
  cmd := bitField n 0 5
  mode := bitField n 5 1
  a := bitsPortAt n 6
  t := bitField n 44 6
  v := bitField n 50 33
  h := hexPortAt n 83
  fd := #v[bitField n 151 33, bitField n 184 33, bitField n 217 33, bitField n 250 33, bitField n 283 33, bitField n 316 33]
  fbits := #v[bitsPortAt n 349, bitsPortAt n 387, bitsPortAt n 425, bitsPortAt n 463, bitsPortAt n 501, bitsPortAt n 539]

/-- Why a number is no request. -/
inductive DecodeError where
  /-- It has a bit at or above bit 577, which no request has. -/
  | widerThanARequest
deriving DecidableEq, Repr

/-- The command a number presents; total, and refusing by name a number that is no request. -/
def decodeWord (n : Nat) : Except DecodeError Instr :=
  if n >>> requestWidth = 0 then .ok (decode (Request.ofNat n)) else .error .widerThanARequest

/-- The command the decoder reads from the low `nbits` bits of `w`, every bit above them 0. -/
def decodeTableWord (nbits w : Nat) : Option Instr :=
  match decodeWord (w % 2 ^ nbits) with
  | .ok i => some i
  | .error _ => none

/-! The encoder. -/

/-- A bit-string operand on its input port (R81). An over-long operand's data is meaningless and is put to 0. -/
def BitsOperand.port : BitsOperand → BitsPort
  | .str s => BitsPort.ofString s
  | .overlong n => ⟨BitVec.ofNat 6 n, 0⟩

/-- A hex operand on its input port (R84). -/
def HexOperand.port : HexOperand → HexPort
  | .str cs => HexPort.ofString cs
  | .overlong n => ⟨BitVec.ofNat 4 n, #v[0, 0, 0, 0, 0, 0, 0, 0]⟩

/-- A request with a command code and every other field 0; a command ignores the fields it does not read (R87, R90).
DESIGN CHOICE, log entry 12. -/
def Request.blank (cmd : BitVec 5) : Request where
  cmd := cmd
  mode := 0
  a := ⟨0, 0⟩
  t := 0
  v := 0
  h := ⟨0, #v[0, 0, 0, 0, 0, 0, 0, 0]⟩
  fd := #v[0, 0, 0, 0, 0, 0]
  fbits := #v[⟨0, 0⟩, ⟨0, 0⟩, ⟨0, 0⟩, ⟨0, 0⟩, ⟨0, 0⟩, ⟨0, 0⟩]

/-- The 5-bit code of a command (R85, R86). -/
def Instr.code : Instr → BitVec 5
  | .ones _ => 0x00
  | .twos _ => 0x01
  | .bext _ _ _ => 0x02
  | .d2b _ _ => 0x03
  | .b2d _ _ => 0x04
  | .h2b _ => 0x05
  | .b2h _ => 0x06
  | .h2d _ _ => 0x07
  | .d2h _ _ => 0x08
  | .reserved09 => 0x09
  | .reserved0A => 0x0A
  | .reserved0B => 0x0B
  | .reserved0C => 0x0C
  | .reserved0D => 0x0D
  | .reserved0E => 0x0E
  | .reserved0F => 0x0F
  | .filldR _ _ _ _ _ _ => 0x10
  | .filldI _ _ _ _ => 0x11
  | .filldJ _ _ => 0x12
  | .reserved13 => 0x13
  | .fillbR _ _ _ _ _ _ _ => 0x14
  | .fillbI _ _ _ _ _ => 0x15
  | .fillbJ _ _ => 0x16
  | .reserved17 => 0x17
  | .composeR => 0x18
  | .composeI => 0x19
  | .composeJ => 0x1A
  | .reserved1B => 0x1B
  | .decodeR _ _ => 0x1C
  | .decodeI _ _ => 0x1D
  | .decodeJ _ => 0x1E
  | .reserved1F => 0x1F

/-- The request that presents a command: its code, and its operands on the fields rule R87 names. -/
def encode (i : Instr) : Request :=
  let r := Request.blank i.code
  match i with
  | .ones a => { r with a := a.port }
  | .twos a => { r with a := a.port }
  | .bext a t x => { r with a := a.port, t := BitVec.ofNat 6 t, mode := x.bit }
  | .d2b v t => { r with v := IntPort.ofInt v, t := BitVec.ofNat 6 t }
  | .b2d a m => { r with a := a.port, mode := m.bit }
  | .h2b h => { r with h := h.port }
  | .b2h a => { r with a := a.port }
  | .h2d h m => { r with h := h.port, mode := m.bit }
  | .d2h v n => { r with v := IntPort.ofInt v, t := BitVec.ofNat 6 n }
  | .filldR op rs rt rd shamt funct =>
    { r with fd := #v[IntPort.ofInt op, IntPort.ofInt rs, IntPort.ofInt rt, IntPort.ofInt rd, IntPort.ofInt shamt,
                      IntPort.ofInt funct] }
  | .filldI op rs rt imm =>
    { r with fd := #v[IntPort.ofInt op, IntPort.ofInt rs, IntPort.ofInt rt, IntPort.ofInt imm, 0, 0] }
  | .filldJ op address => { r with fd := #v[IntPort.ofInt op, IntPort.ofInt address, 0, 0, 0, 0] }
  | .fillbR op rs rt rd shamt funct m =>
    { r with fbits := #v[op.port, rs.port, rt.port, rd.port, shamt.port, funct.port], mode := m.bit }
  | .fillbI op rs rt imm m =>
    { r with fbits := #v[op.port, rs.port, rt.port, imm.port, ⟨0, 0⟩, ⟨0, 0⟩], mode := m.bit }
  | .fillbJ op address =>
    { r with fbits := #v[op.port, address.port, ⟨0, 0⟩, ⟨0, 0⟩, ⟨0, 0⟩, ⟨0, 0⟩] }
  | .decodeR h m => { r with h := h.port, mode := m.bit }
  | .decodeI h m => { r with h := h.port, mode := m.bit }
  | .decodeJ h => { r with h := h.port }
  | .composeR => r
  | .composeI => r
  | .composeJ => r
  | .reserved09 => r
  | .reserved0A => r
  | .reserved0B => r
  | .reserved0C => r
  | .reserved0D => r
  | .reserved0E => r
  | .reserved0F => r
  | .reserved13 => r
  | .reserved17 => r
  | .reserved1B => r
  | .reserved1F => r

/-- Fields laid end to end, the first at bit 0: each entry is a width and a value below `2^width`. -/
def packFields : List (Nat × Nat) → Nat
  | [] => 0
  | (w, x) :: fs => x + 2 ^ w * packFields fs

/-- The fields of a bit-string port, as laid out. -/
def BitsPort.fields (p : BitsPort) : List (Nat × Nat) := [(6, p.len.toNat), (32, p.data.toNat)]

/-- The fields of a hex port, as laid out. -/
def HexPort.fields (p : HexPort) : List (Nat × Nat) :=
  (4, p.len.toNat) :: p.ch.toList.map (fun c => (8, c.toNat))

/-- The fields of a request, as laid out (R79). -/
def Request.fields (r : Request) : List (Nat × Nat) :=
  [(5, r.cmd.toNat), (1, r.mode.toNat)] ++ r.a.fields ++ [(6, r.t.toNat), (33, r.v.toNat)] ++ r.h.fields ++
    r.fd.toList.map (fun x => (33, x.toNat)) ++ r.fbits.toList.flatMap BitsPort.fields

/-- A request as one number. -/
def Request.toNat (r : Request) : Nat := packFields r.fields

/-- The number that presents a command. -/
def encodeWord (i : Instr) : Nat := (encode i).toNat

end Sys2Proof
end

