-- ==== Sys2Proof/Machine/Flags.lean ====
section
/-! DEFINITION. Machine/Flags.lean: the block has no flags (10_state.md rule R33); its only status outputs are the error
fields of a response. This file holds the error taxonomy (60_exceptions.md rules R200 to R206) and the codes. -/

namespace Sys2Proof.Machine

/-- The sub-cause of a PreconditionError (R202). -/
inductive SubCause where
  | notNibble
  | fieldWidth
  | wordLength
  | badHexDigit
  | empty
  | zeroWidth
  | portWidth
deriving DecidableEq, Repr

/-- The ways a command ends other than OK (R200), with the index each records (R201, R202). -/
inductive CmdError where
  | range (info : Nat)
  | precondition (sub : SubCause) (info : Nat)
  | state
  | illegalCommand
deriving DecidableEq, Repr

/-- `sub` of a sub-cause (R202). -/
def SubCause.code : SubCause → BitVec 3
  | .notNibble => 0
  | .fieldWidth => 1
  | .wordLength => 2
  | .badHexDigit => 3
  | .empty => 4
  | .zeroWidth => 5
  | .portWidth => 6

/-- `resp.err` of an error; 0 is OK (R206). -/
def CmdError.err : CmdError → BitVec 3
  | .range _ => 1
  | .precondition _ _ => 2
  | .state => 3
  | .illegalCommand => 4

/-- `resp.sub` of an error: the sub-cause of a PreconditionError, else 0 (R206). -/
def CmdError.sub : CmdError → BitVec 3
  | .precondition c _ => c.code
  | .range _ => 0
  | .state => 0
  | .illegalCommand => 0

/-- `resp.info` of an error: a field index or a character index, else 0 (R206). -/
def CmdError.info : CmdError → BitVec 3
  | .range k => BitVec.ofNat 3 k
  | .precondition _ k => BitVec.ofNat 3 k
  | .state => 0
  | .illegalCommand => 0

/-- The same error reported for field `k` of a fill: `raise E with info = k` (R150). -/
def CmdError.atField (k : Nat) : CmdError → CmdError
  | .range _ => .range k
  | .precondition c _ => .precondition c k
  | .state => .state
  | .illegalCommand => .illegalCommand

end Sys2Proof.Machine
end

