-- ==== Sys2Proof/Machine/State.lean ====
section
/-! DEFINITION. Machine/State.lean: the block's state (10_state.md). The instruction-value register `iv` is the spec's
only architectural state (R20). Beside it stand the model's own fields: the response of the step just taken, what is
presented on the request port and the reset input, and the counter the free values are drawn with (DESIGN CHOICE, log entries 1, 4, 5). -/

namespace Sys2Proof.Machine

/-- The instruction-value register (R21). `dec` and `fb` have six slots; only the first `nfields(fmt)` belong to the
value. Which parts are defined depends on `status` (R28). -/
structure IV where
  /-- `iv.status`, 2 bits (R22). -/
  status : Status
  /-- `iv.fmt`, 2 bits (R23). -/
  fmt : Fmt
  /-- `iv.src`, 2 bits (R24). -/
  src : Src
  /-- `iv.mode`, 1 bit: the mode of the signed-capable field (R24). -/
  mode : Mode
  /-- `iv.dec[0..5]`, the decimal view (R21); integers by R10. -/
  dec : Vector Int 6
  /-- `iv.fb[0..5]`, the bit-string view (R21). -/
  fb : Vector BitString 6
  /-- `iv.word`, the composed word, 32 bits (R21). -/
  word : Word
deriving DecidableEq, Repr

/-- The response of a command on its ports (R82). -/
structure Response where
  err : BitVec 3
  sub : BitVec 3
  info : BitVec 3
  rb : BitsPort
  ri : IntPort
  rh : HexPort
deriving DecidableEq, Repr

/-- What stands on the block's inputs for one step: the reset input (R230) and the requests presented (R79). A requester
presents at most one (R236). -/
structure Input where
  reset : Bool
  requests : List Request
deriving DecidableEq, Repr

/-- The state of one block. -/
structure State where
  /-- The instruction-value register (R20, R21). -/
  iv : IV
  /-- MODEL'S OWN: the response the step just taken produced, none if it performed no command (R20, R82, R230). -/
  resp : Option Response
  /-- MODEL'S OWN: what the outside presents, step by step, the next step's inputs first (R58). -/
  inputs : List Input
  /-- MODEL'S OWN: the counter the free values of Config are applied to. -/
  free : Nat
deriving DecidableEq, Repr

/-- No operation of the block is fatal: every error is a response and the block goes on (R200, R208), and no behaviour
is stuck (93_implementation_defined.md). So there is no fault: nothing raises one. Safe. -/
inductive Fault where
deriving DecidableEq, Repr

/-- Why a step is refused. -/
inductive Refusal where
  /-- Raised by `exec` alone, for an instruction without a meaning; no arm raises it now. Safe. -/
  | notModelled (mnemonic : String)
  /-- Raised by `step` when more than one request is presented to the block for one step. The spec says such a request
  has no meaning and a model refuses it (R58, R236). Safe. -/
  | overlappingRequests
deriving DecidableEq, Repr

/-- The three outcomes of a command or a step. -/
abbrev Result := Host.Outcome State Fault Refusal

/-- The register right after reset. R36 gives `status` = EMPTY only; every other part is unspecified, and the values
here are the model's (DESIGN CHOICE, log entry 2). No readback and no command reads them (R28). -/
def IV.reset : IV where
  status := .empty
  fmt := .R
  src := .dec
  mode := .unsigned
  dec := #v[0, 0, 0, 0, 0, 0]
  fb := #v[[], [], [], [], [], []]
  word := 0

/-- The block right after reset, with nothing presented yet (R36, R230, R232). -/
def State.reset : State where
  iv := IV.reset
  resp := none
  inputs := []
  free := 0

end Sys2Proof.Machine
end

