-- ==== Sys2Proof/Machine/Operands.lean ====
section
/-! DEFINITION. Machine/Operands.lean: the three word layouts (30_encoding.md rules R71 to R76), how a command reads a
bit-string operand, and the parts of `iv` by field index. -/

namespace Sys2Proof

/-- Field widths (R8). -/
def Field.width : Field → Nat
  | .op => 6
  | .rs => 5
  | .rt => 5
  | .rd => 5
  | .shamt => 5
  | .funct => 6
  | .immediate => 16
  | .address => 26

/-- `layout(F)` (R72). -/
def Fmt.layout : Fmt → List Field
  | .R => [.op, .rs, .rt, .rd, .shamt, .funct]
  | .I => [.op, .rs, .rt, .immediate]
  | .J => [.op, .address]

/-- The widths of a format's fields, in layout order (R71, R73, R74). -/
def Fmt.widths (F : Fmt) : List Nat := F.layout.map Field.width

/-- `nfields(F)` (R72). -/
def Fmt.nfields (F : Fmt) : Nat := F.layout.length

/-- `w_k(F)` (R72). -/
def Fmt.width (F : Fmt) (k : Nat) : Nat := F.widths.getD k 0

/-- `off_k(F)`: `off_0 = 0`, `off_{k+1} = off_k + w_k` (R72). -/
def Fmt.offset (F : Fmt) (k : Nat) : Nat := (F.widths.take k).sum

/-- `sc(F)`, the signed-capable field: shamt in R, immediate in I, none in J (R76). -/
def Fmt.signedField : Fmt → Option Nat
  | .R => some 4
  | .I => some 3
  | .J => none

/-- `mode_k(F, m)`: the caller's mode for the signed-capable field, Unsigned for every other (R76). -/
def Fmt.fieldMode (F : Fmt) (m : Mode) (k : Nat) : Mode :=
  if F.signedField = some k then m else .unsigned

/-- What a fill or decode writes to `iv.mode`: the caller's mode for R and I, 0 for J (R154, R162). -/
def Fmt.storedMode (F : Fmt) (m : Mode) : Mode :=
  match F with
  | .R => m
  | .I => m
  | .J => .unsigned

/-- `slice_k(F, u) = u⟨off_k : off_k + w_k⟩` (R75). -/
def Fmt.slice (F : Fmt) (k : Nat) (u : BitString) : BitString :=
  (u.drop (F.offset k)).take (F.width k)

/-- The slices of a word string, in layout order (R162). -/
def Fmt.slices (F : Fmt) (u : BitString) : List BitString :=
  (List.range F.nfields).map (fun k => F.slice k u)

/-- The width of register slot `k` of `iv.fb`: 6, 26, 5, 16, 5, 6 (R21). -/
def slotWidth (k : Nat) : Nat := [6, 26, 5, 16, 5, 6].getD k 0

namespace Machine

/-- A bit-string operand as a primitive reads it: longer than `WMAX` is PORT_WIDTH (R81, R203). -/
def readBits : BitsOperand → Except CmdError BitString
  | .overlong _ => .error (.precondition .portWidth 0)
  | .str s => if Config.WMAX < s.length then .error (.precondition .portWidth 0) else .ok s

/-- A bit-string operand as a field of width `w`, if it has exactly that width; an over-long operand never has
(R81, R154). -/
def fieldString (w : Nat) : BitsOperand → Option BitString
  | .overlong _ => none
  | .str s => if s.length = w then some s else none

/-- The decimal views of bit fields, from field `k` on (R154, R162). -/
def fieldValues (F : Fmt) (m : Mode) : Nat → List BitString → List Int
  | _, [] => []
  | k, b :: bs => valueOf b (F.fieldMode m k) :: fieldValues F m (k + 1) bs

/-- `iv.dec[k]`. -/
def IV.decAt (v : IV) (k : Nat) : Int := v.dec.toList.getD k 0

/-- `iv.fb[k]`. -/
def IV.fbAt (v : IV) (k : Nat) : BitString := v.fb.toList.getD k []

/-- `iv.fb[0]` to `iv.fb[nfields-1]`: the fields that belong to the value (R21). -/
def IV.liveFb (v : IV) : List BitString := v.fb.toList.take v.fmt.nfields

/-- Six decimal slots from the live fields; the slots above them hold any value (R21). -/
def decSlots (n : Nat) (ds : List Int) : Vector Int 6 :=
  let slot (k : Nat) : Int := ds.getD k (Config.freeDec n k).toInt
  #v[slot 0, slot 1, slot 2, slot 3, slot 4, slot 5]

/-- Six bit-string slots from the live fields; the slots above them hold any value that fits the slot (R21). -/
def fbSlots (n : Nat) (bs : List BitString) : Vector BitString 6 :=
  let slot (k : Nat) : BitString := bs.getD k ((Config.freeFb n k).take (slotWidth k))
  #v[slot 0, slot 1, slot 2, slot 3, slot 4, slot 5]

end Machine

end Sys2Proof
end

