-- ==== Sys2Proof/Machine/Prims.lean ====
section
/-! DEFINITION. Machine/Prims.lean: the nine bit-arithmetic primitives as functions (40_bit_primitives.md), each with its
checks in the order its rule gives them. They are commands of the block, and the codec commands call them (R110). -/

namespace Sys2Proof.Machine

/-- ONES (R111). -/
def onesComplement (a : BitsOperand) : Except CmdError BitString :=
  match readBits a with
  | .error e => .error e
  | .ok s => .ok (onesBits s)

/-- TWOS (R112). -/
def twosComplement (a : BitsOperand) : Except CmdError BitString :=
  match readBits a with
  | .error e => .error e
  | .ok s => .ok (twosBits s)

/-- BEXT (R114). -/
def bitExtend (a : BitsOperand) (t : Nat) (x : ExtKind) : Except CmdError BitString :=
  match readBits a with
  | .error e => .error e
  | .ok s =>
    if Config.WMAX < t then .error (.precondition .portWidth 0)
    else if t < s.length then .error (.range 0)
    else if t = s.length then .ok s
    else match x with
      | .zero => .ok (zext t s)
      | .sign => if s.length = 0 then .error (.precondition .empty 0) else .ok (sext t s)

/-- D2B (R115). -/
def decimalToBits (v : Int) (t : Nat) : Except CmdError BitString :=
  if Config.WMAX < t then .error (.precondition .portWidth 0)
  else if t = 0 then .error (.precondition .zeroWidth 0)
  else if t < (minbin v.natAbs).length then .error (.range 0)
  else if v < 0 then .ok (twosBits (zext t (minbin v.natAbs)))
  else .ok (zext t (minbin v.natAbs))

/-- B2D (R117). -/
def bitsToDecimal (a : BitsOperand) (m : Mode) : Except CmdError Int :=
  match readBits a with
  | .error e => .error e
  | .ok s => if s.length = 0 then .error (.precondition .empty 0) else .ok (valueOf s m)

/-- Each digit to four bits, from character `j` on, stopping at the leftmost bad one (R119). -/
def expandDigits : Nat → List HexChar → Except CmdError BitString
  | _, [] => .ok []
  | j, c :: cs =>
    match digit c with
    | none => .error (.precondition .badHexDigit j)
    | some d =>
      match expandDigits (j + 1) cs with
      | .error e => .error e
      | .ok s => .ok (bitsN 4 d ++ s)

/-- H2B (R119). -/
def hexToBits : HexOperand → Except CmdError BitString
  | .overlong _ => .error (.precondition .portWidth 0)
  | .str cs =>
    if Config.WMAX < 4 * cs.length then .error (.precondition .portWidth 0) else expandDigits 0 cs

/-- B2H (R120). -/
def bitsToHex (a : BitsOperand) : Except CmdError (List HexChar) :=
  match readBits a with
  | .error e => .error e
  | .ok s => if s.length % 4 ≠ 0 then .error (.precondition .notNibble 0) else .ok (hexChars s)

/-- H2D (R121): `B2D(H2B(h), m)`. -/
def hexToDecimal (h : HexOperand) (m : Mode) : Except CmdError Int :=
  match hexToBits h with
  | .error e => .error e
  | .ok s => bitsToDecimal (.str s) m

/-- D2H (R122): `B2H(D2B(v, 4n))`. -/
def decimalToHex (v : Int) (n : Nat) : Except CmdError (List HexChar) :=
  if Config.WMAX < 4 * n then .error (.precondition .portWidth 0)
  else match decimalToBits v (4 * n) with
    | .error e => .error e
    | .ok s => bitsToHex (.str s)

/-- The fields of a fill from decimal values, from field `k` on: each through D2B at its width, stopping at the first
that fails and reporting its index (R150). -/
def encodeFields : Nat → List Nat → List Int → Except CmdError (List BitString)
  | k, w :: ws, d :: ds =>
    match decimalToBits d w with
    | .error e => .error (e.atField k)
    | .ok b =>
      match encodeFields (k + 1) ws ds with
      | .error e => .error e
      | .ok bs => .ok (b :: bs)
  | _, _, _ => .ok []

/-- The fields of a fill from bit strings, from field `k` on: each must have its field's width (R154). -/
def checkFields : Nat → List Nat → List BitsOperand → Except CmdError (List BitString)
  | k, w :: ws, a :: as =>
    match fieldString w a with
    | none => .error (.precondition .fieldWidth k)
    | some b =>
      match checkFields (k + 1) ws as with
      | .error e => .error e
      | .ok bs => .ok (b :: bs)
  | _, _, _ => .ok []

/-- The word string of a hex operand to decode: exactly eight digits, then the digits themselves (R162). -/
def wordString : HexOperand → Except CmdError BitString
  | .overlong _ => .error (.precondition .wordLength 0)
  | .str cs =>
    if cs.length ≠ Config.HEX_DIGITS then .error (.precondition .wordLength 0) else hexToBits (.str cs)

/-- `hexview(iv) = B2H(iv.word)`, always eight digits (R26). -/
def IV.hexview (v : IV) : List HexChar := hexChars (wordBits v.word)

end Sys2Proof.Machine
end

