-- ==== Sys2Proof/Machine/Ops.lean ====
section
/-! DEFINITION. Machine/Ops.lean: the operations over the state: responses (30_encoding.md rules R82, R88), the one error
response every command shares (60_exceptions.md rule R208), reset (70_reset_and_hazards.md rule R230), and the four codec
operations for any format (41_format_codec.md rules R150, R154, R158, R162). -/

namespace Sys2Proof.Machine

/-- A register of which only the status is defined: every other part is any value (R27, R36), within its width and its
legal codes (R21, R23, R24; DEDUCED, log entry 8). -/
def IV.undefinedBut (st : Status) (n : Nat) : IV where
  status := st
  fmt := Config.freeFmt n
  src := Config.freeSrc n
  mode := Config.freeMode n
  dec := decSlots n []
  fb := fbSlots n []
  word := Config.freeWord n

/-- A successful response with no result written yet: `err = sub = info = 0`, and every result port any value (R82). -/
def Response.ok (n : Nat) : Response where
  err := 0
  sub := 0
  info := 0
  rb := Config.freeRb n
  ri := Config.freeRi n
  rh := Config.freeRh n

/-- An error response (R206); its result ports hold any value (R82, R208). -/
def Response.error (e : CmdError) (n : Nat) : Response where
  err := e.err
  sub := e.sub
  info := e.info
  rb := Config.freeRb n
  ri := Config.freeRi n
  rh := Config.freeRh n

/-- A command ends: its response and the new register at once (R56). The counter moves on, so that no free value is
drawn twice. -/
def State.finish (s : State) (v : IV) (r : Response) : State :=
  { s with iv := v, resp := some r, free := s.free + 1 }

/-- Taking an error (R208), the block's trap entry: the error fields are written, the result ports hold any value, and
`iv` is INVALID with every other part any value (fills and decodes) or unchanged (every other command). Nothing else is
saved, and there is no return (R210). -/
def State.takeError (s : State) (e : CmdError) (invalidates : Bool) : State :=
  s.finish (if invalidates then IV.undefinedBut .invalid s.free else s.iv) (Response.error e s.free)

/-- A primitive with a bit-string result ends (R88, R110). -/
def State.answerBits (s : State) : Except CmdError BitString → Result
  | .ok b => .next (s.finish s.iv { Response.ok s.free with rb := BitsPort.ofString b })
  | .error e => .next (s.takeError e false)

/-- A primitive with an integer result ends (R88, R110). -/
def State.answerInt (s : State) : Except CmdError Int → Result
  | .ok v => .next (s.finish s.iv { Response.ok s.free with ri := IntPort.ofInt v })
  | .error e => .next (s.takeError e false)

/-- A primitive with a hex result ends (R88, R110). -/
def State.answerHex (s : State) : Except CmdError (List HexChar) → Result
  | .ok cs => .next (s.finish s.iv { Response.ok s.free with rh := HexPort.ofString cs })
  | .error e => .next (s.takeError e false)

/-- FILLD(F, d) (R150). The word is not composed yet, so it holds any value (R28). -/
def State.fillDecimal (s : State) (F : Fmt) (d : List Int) : Result :=
  match encodeFields 0 F.widths d with
  | .error e => .next (s.takeError e true)
  | .ok b =>
    .next (s.finish
      { status := .filled, fmt := F, src := .dec, mode := .unsigned, dec := decSlots s.free d, fb := fbSlots s.free b,
        word := Config.freeWord s.free }
      (Response.ok s.free))

/-- FILLB(F, s, m) (R154). -/
def State.fillBits (s : State) (F : Fmt) (a : List BitsOperand) (m : Mode) : Result :=
  match checkFields 0 F.widths a with
  | .error e => .next (s.takeError e true)
  | .ok b =>
    .next (s.finish
      { status := .filled, fmt := F, src := .bits, mode := F.storedMode m, dec := decSlots s.free (fieldValues F m 0 b),
        fb := fbSlots s.free b, word := Config.freeWord s.free }
      (Response.ok s.free))

/-- The register after COMPOSE: only the status and the word change (R29, R158). Of a consistent register the string has
32 bits (R25); of any other, which no run reaches, the word keeps its low 32 (DESIGN CHOICE, log entry 9). -/
def IV.compose (v : IV) : IV :=
  { v with status := .composed, word := wordOf v.liveFb.flatten }

/-- COMPOSE(F) (R158): the word and its hex rendering are also the response (R88). -/
def State.compose (s : State) (F : Fmt) : Result :=
  if (s.iv.status = .filled ∨ s.iv.status = .composed) ∧ s.iv.fmt = F then
    .next (s.finish s.iv.compose
      { Response.ok s.free with
        rb := BitsPort.ofString (wordBits s.iv.compose.word), rh := HexPort.ofString s.iv.compose.hexview })
  else .next (s.takeError .state false)

/-- DECODE(F, h, m) (R162). -/
def State.decodeHex (s : State) (F : Fmt) (h : HexOperand) (m : Mode) : Result :=
  match wordString h with
  | .error e => .next (s.takeError e true)
  | .ok u =>
    .next (s.finish
      { status := .composed, fmt := F, src := .hex, mode := F.storedMode m,
        dec := decSlots s.free (fieldValues F m 0 (F.slices u)), fb := fbSlots s.free (F.slices u), word := wordOf u }
      (Response.ok s.free))

/-- A reserved code (R86, R205): no operand is read, `iv` is unchanged, the response is IllegalCommand. -/
def State.illegal (s : State) : Result := .next (s.takeError .illegalCommand false)

/-- Reset is taken (R230): EMPTY, every other part unspecified, and no response. -/
def State.takeReset (s : State) : State :=
  { s with iv := IV.undefinedBut .empty s.free, resp := none, free := s.free + 1 }

/-- Nothing is presented: no command is performed, so there is no response and `iv` keeps its value (R58; DESIGN CHOICE,
log entry 4). -/
def State.idle (s : State) : State := { s with resp := none }

/-- What the next step finds on the inputs. -/
inductive Presented where
  | nothing
  | reset
  | command (i : Instr)
  | overlapping
deriving DecidableEq, Repr

/-- Reading the inputs of the next step: reset wins over a request at the same instant (R230), and a second request has
no meaning (R58, R236). DESIGN CHOICE, log entry 5. -/
def State.presented (s : State) : Presented :=
  match s.inputs with
  | [] => .nothing
  | ⟨true, _⟩ :: _ => .reset
  | ⟨false, []⟩ :: _ => .nothing
  | ⟨false, [r]⟩ :: _ => .command (decode r)
  | ⟨false, _ :: _ :: _⟩ :: _ => .overlapping

/-- The inputs of this step are gone. -/
def State.consume (s : State) : State := { s with inputs := s.inputs.tail }

/-- A request presented for the very next step, before everything else on the inputs. -/
def State.present (s : State) (r : Request) : State := { s with inputs := ⟨false, [r]⟩ :: s.inputs }

end Sys2Proof.Machine
end

