-- ==== Sys2Proof/Machine/Compose.lean ====
section
/-! DEFINITION. Machine/Compose.lean: compose, per format (41_format_codec.md rules R158 to R161). -/

namespace Sys2Proof.Machine

/-- COMPOSE_R, cmd 0x18 (R159). -/
def execComposeR (s : State) : Result :=
  s.compose .R

/-- COMPOSE_I, cmd 0x19 (R160). -/
def execComposeI (s : State) : Result :=
  s.compose .I

/-- COMPOSE_J, cmd 0x1A (R161). -/
def execComposeJ (s : State) : Result :=
  s.compose .J

end Sys2Proof.Machine
end

