-- ==== Sys2Proof/Machine/DecodeHex.lean ====
section
/-! DEFINITION. Machine/DecodeHex.lean: decode from a hex word, per format (41_format_codec.md rules R162 to R165). -/

namespace Sys2Proof.Machine

/-- DECODE_R, cmd 0x1C (R163). -/
def execDecodeR (h : HexOperand) (m : Mode) (s : State) : Result :=
  s.decodeHex .R h m

/-- DECODE_I, cmd 0x1D (R164). -/
def execDecodeI (h : HexOperand) (m : Mode) (s : State) : Result :=
  s.decodeHex .I h m

/-- DECODE_J, cmd 0x1E (R165): there is no mode, and `iv.mode` is written 0. -/
def execDecodeJ (h : HexOperand) (s : State) : Result :=
  s.decodeHex .J h .unsigned

end Sys2Proof.Machine
end

