-- ==== Sys2Proof/Machine/FillBits.lean ====
section
/-! DEFINITION. Machine/FillBits.lean: fill from bit strings, per format (41_format_codec.md rules R154 to R157). -/

namespace Sys2Proof.Machine

/-- FILLB_R, cmd 0x14 (R155). -/
def execFillbR (op rs rt rd shamt funct : BitsOperand) (m : Mode) (s : State) : Result :=
  s.fillBits .R [op, rs, rt, rd, shamt, funct] m

/-- FILLB_I, cmd 0x15 (R156). -/
def execFillbI (op rs rt imm : BitsOperand) (m : Mode) (s : State) : Result :=
  s.fillBits .I [op, rs, rt, imm] m

/-- FILLB_J, cmd 0x16 (R157): there is no mode, and `iv.mode` is written 0. -/
def execFillbJ (op address : BitsOperand) (s : State) : Result :=
  s.fillBits .J [op, address] .unsigned

end Sys2Proof.Machine
end

