-- ==== Sys2Proof/Machine/FillDecimal.lean ====
section
/-! DEFINITION. Machine/FillDecimal.lean: fill from decimal, per format (41_format_codec.md rules R150 to R153). -/

namespace Sys2Proof.Machine

/-- FILLD_R, cmd 0x10 (R151). -/
def execFilldR (op rs rt rd shamt funct : Int) (s : State) : Result :=
  s.fillDecimal .R [op, rs, rt, rd, shamt, funct]

/-- FILLD_I, cmd 0x11 (R152). -/
def execFilldI (op rs rt imm : Int) (s : State) : Result :=
  s.fillDecimal .I [op, rs, rt, imm]

/-- FILLD_J, cmd 0x12 (R153). -/
def execFilldJ (op address : Int) (s : State) : Result :=
  s.fillDecimal .J [op, address]

end Sys2Proof.Machine
end

