-- ==== Sys2Proof/Machine/Primitives.lean ====
section
/-! DEFINITION. Machine/Primitives.lean: the nine primitive commands (40_bit_primitives.md). Each reads only its operands,
writes only its response, and never touches `iv` (R110). -/

namespace Sys2Proof.Machine

/-- ONES, cmd 0x00 (R111). -/
def execOnes (a : BitsOperand) (s : State) : Result :=
  s.answerBits (onesComplement a)

/-- TWOS, cmd 0x01 (R112). -/
def execTwos (a : BitsOperand) (s : State) : Result :=
  s.answerBits (twosComplement a)

/-- BEXT, cmd 0x02 (R114). -/
def execBext (a : BitsOperand) (t : Nat) (x : ExtKind) (s : State) : Result :=
  s.answerBits (bitExtend a t x)

/-- D2B, cmd 0x03 (R115). -/
def execD2b (v : Int) (t : Nat) (s : State) : Result :=
  s.answerBits (decimalToBits v t)

/-- B2D, cmd 0x04 (R117). -/
def execB2d (a : BitsOperand) (m : Mode) (s : State) : Result :=
  s.answerInt (bitsToDecimal a m)

/-- H2B, cmd 0x05 (R119). -/
def execH2b (h : HexOperand) (s : State) : Result :=
  s.answerBits (hexToBits h)

/-- B2H, cmd 0x06 (R120). -/
def execB2h (a : BitsOperand) (s : State) : Result :=
  s.answerHex (bitsToHex a)

/-- H2D, cmd 0x07 (R121). -/
def execH2d (h : HexOperand) (m : Mode) (s : State) : Result :=
  s.answerInt (hexToDecimal h m)

/-- D2H, cmd 0x08 (R122). -/
def execD2h (v : Int) (n : Nat) (s : State) : Result :=
  s.answerHex (decimalToHex v n)

end Sys2Proof.Machine
end

