-- ==== Sys2Proof/Machine/Reserved.lean ====
section
/-! DEFINITION. Machine/Reserved.lean: the eleven reserved command codes (30_encoding.md rule R86, 60_exceptions.md rule R205). -/

namespace Sys2Proof.Machine

/-- Reserved code 0x09 (R86). -/
def execReserved09 (s : State) : Result :=
  s.illegal

/-- Reserved code 0x0A (R86). -/
def execReserved0A (s : State) : Result :=
  s.illegal

/-- Reserved code 0x0B (R86). -/
def execReserved0B (s : State) : Result :=
  s.illegal

/-- Reserved code 0x0C (R86). -/
def execReserved0C (s : State) : Result :=
  s.illegal

/-- Reserved code 0x0D (R86). -/
def execReserved0D (s : State) : Result :=
  s.illegal

/-- Reserved code 0x0E (R86). -/
def execReserved0E (s : State) : Result :=
  s.illegal

/-- Reserved code 0x0F (R86). -/
def execReserved0F (s : State) : Result :=
  s.illegal

/-- Reserved code 0x13 (R86). -/
def execReserved13 (s : State) : Result :=
  s.illegal

/-- Reserved code 0x17 (R86). -/
def execReserved17 (s : State) : Result :=
  s.illegal

/-- Reserved code 0x1B (R86). -/
def execReserved1B (s : State) : Result :=
  s.illegal

/-- Reserved code 0x1F (R86). -/
def execReserved1F (s : State) : Result :=
  s.illegal

end Sys2Proof.Machine
end

