-- ==== Sys2Proof/Machine/Dispatch.lean ====
section
/-! DEFINITION. Machine/Dispatch.lean: one arm per command, each one direct call of that command's meaning. -/

namespace Sys2Proof.Machine

def exec (i : Instr) (s : State) : Host.Outcome State Fault Refusal :=
  match i with
  | .ones a => Sys2Proof.Machine.execOnes a s
  | .twos a => Sys2Proof.Machine.execTwos a s
  | .bext a t x => Sys2Proof.Machine.execBext a t x s
  | .d2b v t => Sys2Proof.Machine.execD2b v t s
  | .b2d a m => Sys2Proof.Machine.execB2d a m s
  | .h2b h => Sys2Proof.Machine.execH2b h s
  | .b2h a => Sys2Proof.Machine.execB2h a s
  | .h2d h m => Sys2Proof.Machine.execH2d h m s
  | .d2h v n => Sys2Proof.Machine.execD2h v n s
  | .filldR op rs rt rd shamt funct => Sys2Proof.Machine.execFilldR op rs rt rd shamt funct s
  | .filldI op rs rt imm => Sys2Proof.Machine.execFilldI op rs rt imm s
  | .filldJ op address => Sys2Proof.Machine.execFilldJ op address s
  | .fillbR op rs rt rd shamt funct m => Sys2Proof.Machine.execFillbR op rs rt rd shamt funct m s
  | .fillbI op rs rt imm m => Sys2Proof.Machine.execFillbI op rs rt imm m s
  | .fillbJ op address => Sys2Proof.Machine.execFillbJ op address s
  | .composeR => Sys2Proof.Machine.execComposeR s
  | .composeI => Sys2Proof.Machine.execComposeI s
  | .composeJ => Sys2Proof.Machine.execComposeJ s
  | .decodeR h m => Sys2Proof.Machine.execDecodeR h m s
  | .decodeI h m => Sys2Proof.Machine.execDecodeI h m s
  | .decodeJ h => Sys2Proof.Machine.execDecodeJ h s
  | .reserved09 => Sys2Proof.Machine.execReserved09 s
  | .reserved0A => Sys2Proof.Machine.execReserved0A s
  | .reserved0B => Sys2Proof.Machine.execReserved0B s
  | .reserved0C => Sys2Proof.Machine.execReserved0C s
  | .reserved0D => Sys2Proof.Machine.execReserved0D s
  | .reserved0E => Sys2Proof.Machine.execReserved0E s
  | .reserved0F => Sys2Proof.Machine.execReserved0F s
  | .reserved13 => Sys2Proof.Machine.execReserved13 s
  | .reserved17 => Sys2Proof.Machine.execReserved17 s
  | .reserved1B => Sys2Proof.Machine.execReserved1B s
  | .reserved1F => Sys2Proof.Machine.execReserved1F s

end Sys2Proof.Machine
end

