-- ==== Sys2Proof/Machine/Step.lean ====
section
/-! DEFINITION. Machine/Step.lean: one step of the block: what is presented for it is read, and one command, one reset or
nothing happens (20_memory.md rules R56, R58; 70_reset_and_hazards.md rules R230, R236). -/

namespace Sys2Proof.Machine

/-- One step. -/
def step (s : State) : Host.Outcome State Fault Refusal :=
  match s.presented with
  | .nothing => .next s.consume.idle
  | .reset => .next s.consume.takeReset
  | .command i => exec i s.consume
  | .overlapping => .refused .overlappingRequests

/-- The request that the low `nbits` bits of `w` stand for, presented for the very next step. A program of this block is
a sequence of requests presented from outside (95_test_vectors.md, part L3; DESIGN CHOICE,
log entry 6). -/
def State.withFetchWord (s : State) (nbits w : Nat) : State := s.present (Request.ofNat (w % 2 ^ nbits))

end Sys2Proof.Machine
end

