-- ==== Sys2Proof/Machine/Pseudo.lean ====
section
/-! DEFINITION. Machine/Pseudo.lean: sequences of commands, the two pseudo-commands of each format (30_encoding.md rule
R93), and the register names a caller may write for field values (10_state.md rule R35). -/

namespace Sys2Proof.Machine

/-- Commands performed one after another, each seeing the `iv` the one before it left (R58). -/
def runCommands : List Instr → State → Result
  | [], s => .next s
  | i :: is, s =>
    match exec i s with
    | .next t => runCommands is t
    | .fault f => .fault f
    | .refused r => .refused r

/-- A sequence of commands presented on the inputs, one request a step, before what stands there already. -/
def State.presentAll (s : State) (is : List Instr) : State :=
  { s with inputs := is.map (fun i => ⟨false, [encode i]⟩) ++ s.inputs }

/-- ENCODE_R (R93). -/
def encodeR (op rs rt rd shamt funct : Int) : List Instr := [.filldR op rs rt rd shamt funct, .composeR]

/-- ENCODE_I (R93). -/
def encodeI (op rs rt imm : Int) : List Instr := [.filldI op rs rt imm, .composeI]

/-- ENCODE_J (R93). -/
def encodeJ (op address : Int) : List Instr := [.filldJ op address, .composeJ]

/-- PACK_R (R93). -/
def packR (op rs rt rd shamt funct : BitsOperand) (m : Mode) : List Instr :=
  [.fillbR op rs rt rd shamt funct m, .composeR]

/-- PACK_I (R93). -/
def packI (op rs rt imm : BitsOperand) (m : Mode) : List Instr := [.fillbI op rs rt imm m, .composeI]

/-- PACK_J (R93). -/
def packJ (op address : BitsOperand) : List Instr := [.fillbJ op address, .composeJ]

/-- The register-number values (R35). They are names for callers' field values; no command reads this table. PRESUMED,
log entry 11, for the names the spec marks as general knowledge. -/
def registerNames : List (String × Nat) :=
  [("ZERO", 0), ("AT", 1), ("V0", 2), ("V1", 3), ("A0", 4), ("A1", 5), ("A2", 6), ("A3", 7)] ++
  [("T0", 8), ("T1", 9), ("T2", 10), ("T3", 11), ("T4", 12), ("T5", 13), ("T6", 14), ("T7", 15)] ++
  [("S0", 16), ("S1", 17), ("S2", 18), ("S3", 19), ("S4", 20), ("S5", 21), ("S6", 22), ("S7", 23)] ++
  [("T8", 24), ("T9", 25), ("K0", 26), ("K1", 27), ("GP", 28), ("SP", 29), ("FP", 30), ("S8", 30), ("RA", 31)]

/-- The number a register name stands for (R35). -/
def registerNumber (name : String) : Option Nat := registerNames.lookup name

end Sys2Proof.Machine
end

