-- ==== Sys2Proof/Machine/Readback.lean ====
section
/-! DEFINITION. Machine/Readback.lean: the read-only readback port `q` onto `iv` (30_encoding.md rule R94), with which
parts are defined at each status (10_state.md rule R28). A part that is not defined is `none`. Reading changes nothing. -/

namespace Sys2Proof.Machine

/-- The readback port (R94). -/
structure Readback where
  status : BitVec 2
  fmt : Option (BitVec 2)
  src : Option (BitVec 2)
  mode : Option (BitVec 1)
  dec : List (Option IntPort)
  fb : List (Option BitsPort)
  word : Option Word
  hex : Option HexPort
deriving DecidableEq, Repr

/-- The fields of a value are readable when it is FILLED or COMPOSED (R28). -/
def IV.fieldsDefined (v : IV) : Bool := decide (v.status = .filled ∨ v.status = .composed)

/-- The word is readable when the value is COMPOSED (R28). -/
def IV.wordDefined (v : IV) : Bool := decide (v.status = .composed)

/-- A part, if it is defined. -/
def definedIf {α : Type} (c : Bool) (x : α) : Option α := if c then some x else none

/-- A part of field `k`, if it is defined: a live field of a readable value (R21, R28). -/
def IV.ifLive {α : Type} (v : IV) (k : Nat) (x : α) : Option α :=
  definedIf (v.fieldsDefined && decide (k < v.fmt.nfields)) x

/-- What the readback port carries (R28, R94). -/
def State.readback (s : State) : Readback :=
  let v := s.iv
  { status := v.status.code
    fmt := definedIf v.fieldsDefined v.fmt.code
    src := definedIf v.fieldsDefined v.src.code
    mode := definedIf v.fieldsDefined v.mode.bit
    dec := (List.range 6).map (fun k => v.ifLive k (IntPort.ofInt (v.decAt k)))
    fb := (List.range 6).map (fun k => v.ifLive k (BitsPort.ofString (v.fbAt k)))
    word := definedIf v.wordDefined v.word
    hex := definedIf v.wordDefined (HexPort.ofString v.hexview) }

end Sys2Proof.Machine
end

