-- ==== Sys2Proof/Machine/System.lean ====
section
/-! DEFINITION. Machine/System.lean: several blocks side by side (00_scope.md rule R11, 20_memory.md rule R57,
60_exceptions.md rule R216). Each has its own `iv`; they share no state and have no signals between them. -/

namespace Sys2Proof.Machine

/-- Blocks side by side. They have no identifiers (R216); an index only says which one is meant. -/
abbrev System := List State

/-- One step of block `k`; the order in which blocks step is not given and does not matter (R58). DESIGN CHOICE, log
entry 10. -/
def System.stepBlock (k : Nat) (sys : System) : Host.Outcome System Fault Refusal :=
  match sys[k]? with
  | none => .next sys
  | some s =>
    match step s with
    | .next t => .next (sys.set k t)
    | .fault f => .fault f
    | .refused r => .refused r

end Sys2Proof.Machine
end

