-- ==== Sys2Proof/Safety.lean ====
section
/-! DEFINITION. Safety.lean: what a consistent register is (10_state.md rules R21 to R27), and the words the statements
are written in: what a response reports, what a port carries, and which commands are of one kind. -/

namespace Sys2Proof.Machine

/-- View consistency of one field (R25): its width, and the relation between its two views that the way the value was
made promises. -/
def IV.FieldConsistent (v : IV) (k : Nat) : Prop :=
  (v.fbAt k).length = v.fmt.width k ∧
    (v.src = .dec → decimalToBits (v.decAt k) (v.fmt.width k) = .ok (v.fbAt k)) ∧
    (v.src ≠ .dec → bitsToDecimal (.str (v.fbAt k)) (v.fmt.fieldMode v.mode k) = .ok (v.decAt k))

/-- A consistent register: when FILLED or COMPOSED, every live field is consistent (R25) and the mode is 0 where it has no
meaning (R24); when COMPOSED, the word is the fields in layout order (R26). Nothing is said of an EMPTY or INVALID one
(R27). -/
def IV.Consistent (v : IV) : Prop :=
  ((v.status = .filled ∨ v.status = .composed) →
    (∀ k, k < v.fmt.nfields → v.FieldConsistent k) ∧ (v.src = .dec ∨ v.fmt = .J → v.mode = .unsigned)) ∧
  (v.status = .filled → v.src ≠ .hex) ∧
  (v.status = .composed → wordBits v.word = v.liveFb.flatten)

/-- Every slot fits the register (R21): a decimal slot its 33 bits, a bit-string slot its slot's width. -/
def IV.FitsSlots (v : IV) : Prop :=
  ∀ k, k < 6 → (-(2 ^ 32) ≤ v.decAt k ∧ v.decAt k < 2 ^ 32) ∧ (v.fbAt k).length ≤ slotWidth k

/-- The invariant every step keeps. -/
def State.Inv (s : State) : Prop := s.iv.Consistent ∧ s.iv.FitsSlots

/-- `err = sub = info = 0` (R82). -/
def Response.Success (r : Response) : Prop := r.err = 0 ∧ r.sub = 0 ∧ r.info = 0

/-- The three error fields of a response (R206), as numbers. -/
def Response.Reports (r : Response) (err sub info : Nat) : Prop :=
  r.err.toNat = err ∧ r.sub.toNat = sub ∧ r.info.toNat = info

/-- A bit-string port carries the string of length `n` whose value is `x`, and its data bits above the length are 0
(R14, R81). -/
def Carries (p : BitsPort) (n x : Nat) : Prop := p.len.toNat = n ∧ p.data.toNat = x

/-- A hex port carries `n` digits, digit `j` the character of `d j`, and its slots above them are 0x00 (R84). -/
def CarriesHex (p : HexPort) (n : Nat) (d : Nat → Nat) : Prop :=
  p.len.toNat = n ∧ ∀ j, (h : j < 8) → p.ch[j] = if j < n then chr (d j) else 0

/-- A bit-string operand no primitive can read: its length is over 32 (R81, R203). -/
def BitsOperandTooLong (a : BitsOperand) : Prop := ∀ s, a = .str s → 32 < s.length

/-- A hex operand of more than eight digits (R84, R203). -/
def HexOperandTooLong (h : HexOperand) : Prop := ∀ cs, h = .str cs → 8 < cs.length

/-- The operands a primitive rejects with PORT_WIDTH (R203): a bit string, a target length, a digit count or a hex string
longer than the port. No codec command rejects one so. -/
def PortTooNarrow : Instr → Prop
  | .ones a | .twos a | .b2d a _ | .b2h a => BitsOperandTooLong a
  | .bext a t _ => BitsOperandTooLong a ∨ 32 < t
  | .d2b _ t => 32 < t
  | .d2h _ n => 8 < n
  | .h2b h | .h2d h _ => HexOperandTooLong h
  | _ => False

/-- The value of hex digits, the leftmost the most significant (R17, R53). -/
def digitsValue (ds : List Nat) : Nat := ds.foldl (fun x d => 16 * x + d) 0

/-- Characters that spell these digits in lowercase (R17). -/
def Spells (cs : List HexChar) (ds : List Nat) : Prop := (∀ d ∈ ds, d < 16) ∧ cs = ds.map chr

/-- The integer a bit string of length `n` and value `x` stands for in a mode (R118). -/
def valueInMode (n x : Nat) : Mode → Int
  | .unsigned => x
  | .signed => if 2 ^ n ≤ 2 * x then (x : Int) - 2 ^ n else x

/-- FILLD_F with its format and decimal values (R151 to R153). -/
def asFillDecimal : Instr → Option (Fmt × List Int)
  | .filldR op rs rt rd shamt funct => some (.R, [op, rs, rt, rd, shamt, funct])
  | .filldI op rs rt imm => some (.I, [op, rs, rt, imm])
  | .filldJ op address => some (.J, [op, address])
  | _ => none

/-- FILLB_F with its format, bit strings and mode; FILLB_J has no mode (R155 to R157). -/
def asFillBits : Instr → Option (Fmt × List BitsOperand × Mode)
  | .fillbR op rs rt rd shamt funct m => some (.R, [op, rs, rt, rd, shamt, funct], m)
  | .fillbI op rs rt imm m => some (.I, [op, rs, rt, imm], m)
  | .fillbJ op address => some (.J, [op, address], .unsigned)
  | _ => none

/-- COMPOSE_F with its format (R159 to R161). -/
def asCompose : Instr → Option Fmt
  | .composeR => some .R
  | .composeI => some .I
  | .composeJ => some .J
  | _ => none

/-- DECODE_F with its format, hex word and mode; DECODE_J has no mode (R163 to R165). -/
def asDecodeHex : Instr → Option (Fmt × HexOperand × Mode)
  | .decodeR h m => some (.R, h, m)
  | .decodeI h m => some (.I, h, m)
  | .decodeJ h => some (.J, h, .unsigned)
  | _ => none

/-- The commands that start a new value (R29). -/
def startsValue (i : Instr) : Bool :=
  (asFillDecimal i).isSome || (asFillBits i).isSome || (asDecodeHex i).isSome

/-- The nine primitives (R110). -/
def isPrimitive (i : Instr) : Bool := decide (i.code.toNat ≤ 0x08)

/-- The eleven reserved codes (R86). -/
def isReserved : Instr → Bool
  | .reserved09 | .reserved0A | .reserved0B | .reserved0C | .reserved0D | .reserved0E | .reserved0F => true
  | .reserved13 | .reserved17 | .reserved1B | .reserved1F => true
  | _ => false

end Sys2Proof.Machine
end

