-- ==== Sys2Proof/Certificates/Slice0/Obligations.lean ====
section
/-! DEFINITION. Certificates/Slice0/Obligations.lean: the statements about the block, each from the rules of spec/ named
before it. A statement about a free value holds for every value it may have. -/

open Sys2Proof Sys2Proof.Machine

/-! Requests and commands. -/

/-- R85, R86: every word of the code map, all else 0 (the model's numbering of a request, log entry 3). R80, R81, R83,
R84, R87: for every command with operands, a request with given values in its fields, those of the fills in layout order,
and the mode bit set where the command reads it (and for J, which does not). -/
def Obligations.CodeWordsDecodeToTheirCommands : Prop :=
  (decodeTableWord 8 0x00 = some (.ones (.str [])) ∧ decodeTableWord 8 0x01 = some (.twos (.str [])) ∧
    decodeTableWord 8 0x02 = some (.bext (.str []) 0 .zero) ∧ decodeTableWord 8 0x03 = some (.d2b 0 0) ∧
    decodeTableWord 8 0x04 = some (.b2d (.str []) .unsigned) ∧ decodeTableWord 8 0x05 = some (.h2b (.str [])) ∧
    decodeTableWord 8 0x06 = some (.b2h (.str [])) ∧ decodeTableWord 8 0x07 = some (.h2d (.str []) .unsigned) ∧
    decodeTableWord 8 0x08 = some (.d2h 0 0)) ∧
  (decodeTableWord 8 0x09 = some .reserved09 ∧ decodeTableWord 8 0x0A = some .reserved0A ∧
    decodeTableWord 8 0x0B = some .reserved0B ∧ decodeTableWord 8 0x0C = some .reserved0C ∧
    decodeTableWord 8 0x0D = some .reserved0D ∧ decodeTableWord 8 0x0E = some .reserved0E ∧
    decodeTableWord 8 0x0F = some .reserved0F ∧ decodeTableWord 8 0x13 = some .reserved13 ∧
    decodeTableWord 8 0x17 = some .reserved17 ∧ decodeTableWord 8 0x1B = some .reserved1B ∧
    decodeTableWord 8 0x1F = some .reserved1F) ∧
  (decodeTableWord 8 0x10 = some (.filldR 0 0 0 0 0 0) ∧ decodeTableWord 8 0x11 = some (.filldI 0 0 0 0) ∧
    decodeTableWord 8 0x12 = some (.filldJ 0 0) ∧
    decodeTableWord 8 0x14 =
      some (.fillbR (.str []) (.str []) (.str []) (.str []) (.str []) (.str []) .unsigned) ∧
    decodeTableWord 8 0x15 = some (.fillbI (.str []) (.str []) (.str []) (.str []) .unsigned) ∧
    decodeTableWord 8 0x16 = some (.fillbJ (.str []) (.str []))) ∧
  (decodeTableWord 8 0x18 = some .composeR ∧ decodeTableWord 8 0x19 = some .composeI ∧
    decodeTableWord 8 0x1A = some .composeJ ∧ decodeTableWord 8 0x1C = some (.decodeR (.str []) .unsigned) ∧
    decodeTableWord 8 0x1D = some (.decodeI (.str []) .unsigned) ∧ decodeTableWord 8 0x1E = some (.decodeJ (.str []))) ∧
  (decode { Request.blank 0x02 with a := ⟨3, 5⟩, t := 6, mode := 1 } = .bext (.str [true, false, true]) 6 .sign ∧
    decode { Request.blank 0x02 with a := ⟨3, 5⟩, t := 6, mode := 0 } = .bext (.str [true, false, true]) 6 .zero ∧
    decode { Request.blank 0x04 with a := ⟨1, 1⟩, mode := 1 } = .b2d (.str [true]) .signed ∧
    decode { Request.blank 0x07 with h := ⟨2, #v[0x38, 0x63, 0, 0, 0, 0, 0, 0]⟩, mode := 1 } =
      .h2d (.str [0x38, 0x63]) .signed ∧
    decode { Request.blank 0x1C with h := ⟨2, #v[0x30, 0x61, 0, 0, 0, 0, 0, 0]⟩, mode := 1 } =
      .decodeR (.str [0x30, 0x61]) .signed ∧
    decode { Request.blank 0x1D with h := ⟨2, #v[0x30, 0x61, 0, 0, 0, 0, 0, 0]⟩, mode := 1 } =
      .decodeI (.str [0x30, 0x61]) .signed ∧
    decode { Request.blank 0x1E with h := ⟨2, #v[0x30, 0x61, 0, 0, 0, 0, 0, 0]⟩, mode := 1 } =
      .decodeJ (.str [0x30, 0x61])) ∧
  (decode { Request.blank 0x00 with a := ⟨4, 6⟩ } = .ones (.str [false, true, true, false]) ∧
    decode { Request.blank 0x01 with a := ⟨4, 7⟩ } = .twos (.str [false, true, true, true]) ∧
    decode { Request.blank 0x06 with a := ⟨3, 5⟩ } = .b2h (.str [true, false, true]) ∧
    decode { Request.blank 0x05 with h := ⟨2, #v[0x38, 0x63, 0, 0, 0, 0, 0, 0]⟩ } = .h2b (.str [0x38, 0x63])) ∧
  (decode { Request.blank 0x03 with v := 0x1ffffffff, t := 16 } = .d2b (-1) 16 ∧
    decode { Request.blank 0x08 with v := 0x18c108000, t := 8 } = .d2h (-1945075712) 8 ∧
    decode { Request.blank 0x10 with fd := #v[0, 0x12, 0x13, 0x11, 1, 0x20] } = .filldR 0 18 19 17 1 32 ∧
    decode { Request.blank 0x11 with fd := #v[8, 7, 9, 0x1ffffffff, 2, 3] } = .filldI 8 7 9 (-1) ∧
    decode { Request.blank 0x12 with fd := #v[2, 0x004000000, 3, 4, 5, 6] } = .filldJ 2 67108864) ∧
  (decode { Request.blank 0x14 with mode := 1, fbits := #v[⟨1, 0⟩, ⟨1, 1⟩, ⟨2, 0⟩, ⟨2, 1⟩, ⟨2, 2⟩, ⟨2, 3⟩] } =
      .fillbR (.str [false]) (.str [true]) (.str [false, false]) (.str [false, true]) (.str [true, false])
        (.str [true, true]) .signed ∧
    decode { Request.blank 0x15 with mode := 1, fbits := #v[⟨1, 0⟩, ⟨1, 1⟩, ⟨2, 0⟩, ⟨2, 1⟩, ⟨2, 2⟩, ⟨2, 3⟩] } =
      .fillbI (.str [false]) (.str [true]) (.str [false, false]) (.str [false, true]) .signed ∧
    decode { Request.blank 0x16 with mode := 1, fbits := #v[⟨1, 0⟩, ⟨1, 1⟩, ⟨2, 0⟩, ⟨2, 1⟩, ⟨2, 2⟩, ⟨2, 3⟩] } =
      .fillbJ (.str [false]) (.str [true]))

/-- R80, R85, R87: of every request, whatever else it holds, each code presents its command, with each operand read off
the field the table of R87 lists, `fd` and `fbits` in layout order, and the mode bit read where R80 says (1 Signed, for
BEXT sign) and nowhere else. R86: a reserved code presents its reserved command. -/
def Obligations.EachCommandReadsItsOwnFields : Prop :=
  ∀ r : Request,
    let m : Mode := if r.mode = 1 then .signed else .unsigned
    (r.cmd = 0x00 → decode r = .ones r.a.operand) ∧
    (r.cmd = 0x01 → decode r = .twos r.a.operand) ∧
    (r.cmd = 0x02 → decode r = .bext r.a.operand r.t.toNat (if r.mode = 1 then .sign else .zero)) ∧
    (r.cmd = 0x03 → decode r = .d2b r.v.toInt r.t.toNat) ∧
    (r.cmd = 0x04 → decode r = .b2d r.a.operand m) ∧
    (r.cmd = 0x05 → decode r = .h2b r.h.operand) ∧
    (r.cmd = 0x06 → decode r = .b2h r.a.operand) ∧
    (r.cmd = 0x07 → decode r = .h2d r.h.operand m) ∧
    (r.cmd = 0x08 → decode r = .d2h r.v.toInt r.t.toNat) ∧
    (r.cmd = 0x09 → decode r = .reserved09) ∧
    (r.cmd = 0x0A → decode r = .reserved0A) ∧
    (r.cmd = 0x0B → decode r = .reserved0B) ∧
    (r.cmd = 0x0C → decode r = .reserved0C) ∧
    (r.cmd = 0x0D → decode r = .reserved0D) ∧
    (r.cmd = 0x0E → decode r = .reserved0E) ∧
    (r.cmd = 0x0F → decode r = .reserved0F) ∧
    (r.cmd = 0x10 →
      decode r = .filldR r.fd[0].toInt r.fd[1].toInt r.fd[2].toInt r.fd[3].toInt r.fd[4].toInt r.fd[5].toInt) ∧
    (r.cmd = 0x11 → decode r = .filldI r.fd[0].toInt r.fd[1].toInt r.fd[2].toInt r.fd[3].toInt) ∧
    (r.cmd = 0x12 → decode r = .filldJ r.fd[0].toInt r.fd[1].toInt) ∧
    (r.cmd = 0x13 → decode r = .reserved13) ∧
    (r.cmd = 0x14 →
      decode r = .fillbR r.fbits[0].operand r.fbits[1].operand r.fbits[2].operand r.fbits[3].operand
        r.fbits[4].operand r.fbits[5].operand m) ∧
    (r.cmd = 0x15 →
      decode r = .fillbI r.fbits[0].operand r.fbits[1].operand r.fbits[2].operand r.fbits[3].operand m) ∧
    (r.cmd = 0x16 → decode r = .fillbJ r.fbits[0].operand r.fbits[1].operand) ∧
    (r.cmd = 0x17 → decode r = .reserved17) ∧
    (r.cmd = 0x18 → decode r = .composeR) ∧
    (r.cmd = 0x19 → decode r = .composeI) ∧
    (r.cmd = 0x1A → decode r = .composeJ) ∧
    (r.cmd = 0x1B → decode r = .reserved1B) ∧
    (r.cmd = 0x1C → decode r = .decodeR r.h.operand m) ∧
    (r.cmd = 0x1D → decode r = .decodeI r.h.operand m) ∧
    (r.cmd = 0x1E → decode r = .decodeJ r.h.operand) ∧
    (r.cmd = 0x1F → decode r = .reserved1F)

/-- R79, R81, R83, R84, R85: no operand of any command is lost or changed on the way through a request, nor through the
577-bit number (whose order of fields is the model's, log entry 3). -/
def Obligations.DecodingUndoesEncoding : Prop :=
  ∀ i : Instr, i.wf = true → decode (encode i) = i ∧ decodeWord (encodeWord i) = .ok i

/-- R79, R81, R83, R84: whatever stands on the ports, the command read from them is one the ports can present. -/
def Obligations.DecodedCommandsAreWellFormed : Prop :=
  ∀ r : Request, (decode r).wf = true

/-- R87: every request field not listed for a command is ignored, whatever it holds (R205: a reserved code reads none). -/
def Obligations.FieldsNotReadAreIgnored : Prop :=
  ∀ r q : Request, r.cmd = q.cmd →
    (r.cmd.toNat ∈ [0x00, 0x01, 0x06] → r.a = q.a → decode r = decode q) ∧
    (r.cmd.toNat = 0x02 → r.a = q.a → r.t = q.t → r.mode = q.mode → decode r = decode q) ∧
    (r.cmd.toNat = 0x03 → r.v = q.v → r.t = q.t → decode r = decode q) ∧
    (r.cmd.toNat = 0x04 → r.a = q.a → r.mode = q.mode → decode r = decode q) ∧
    (r.cmd.toNat = 0x05 → r.h = q.h → decode r = decode q) ∧
    (r.cmd.toNat = 0x07 → r.h = q.h → r.mode = q.mode → decode r = decode q) ∧
    (r.cmd.toNat = 0x08 → r.v = q.v → r.t = q.t → decode r = decode q) ∧
    (r.cmd.toNat = 0x10 → r.fd = q.fd → decode r = decode q) ∧
    (r.cmd.toNat = 0x11 → (∀ k, (h : k < 4) → r.fd[k] = q.fd[k]) → decode r = decode q) ∧
    (r.cmd.toNat = 0x12 → (∀ k, (h : k < 2) → r.fd[k] = q.fd[k]) → decode r = decode q) ∧
    (r.cmd.toNat = 0x14 → r.fbits = q.fbits → r.mode = q.mode → decode r = decode q) ∧
    (r.cmd.toNat = 0x15 → (∀ k, (h : k < 4) → r.fbits[k] = q.fbits[k]) → r.mode = q.mode → decode r = decode q) ∧
    (r.cmd.toNat = 0x16 → (∀ k, (h : k < 2) → r.fbits[k] = q.fbits[k]) → decode r = decode q) ∧
    (r.cmd.toNat ∈ [0x18, 0x19, 0x1A] → decode r = decode q) ∧
    (r.cmd.toNat ∈ [0x09, 0x0A, 0x0B, 0x0C, 0x0D, 0x0E, 0x0F, 0x13, 0x17, 0x1B, 0x1F] → decode r = decode q) ∧
    (r.cmd.toNat ∈ [0x1C, 0x1D] → r.h = q.h → r.mode = q.mode → decode r = decode q) ∧
    (r.cmd.toNat = 0x1E → r.h = q.h → decode r = decode q)

/-- R81, R84, R90: data bits at or above the length and character slots at or above the length are ignored on input. -/
def Obligations.BitsAboveTheLengthAreIgnored : Prop :=
  (∀ p q : BitsPort, p.len = q.len →
    (∀ j, j < p.len.toNat → p.data.getLsbD j = q.data.getLsbD j) → p.operand = q.operand) ∧
  (∀ p q : HexPort, p.len = q.len →
    (∀ j, (h : j < 8) → j < p.len.toNat → p.ch[j] = q.ch[j]) → p.operand = q.operand)

/-- R81, R84: a bit string of length `n` stands on data bits `n-1` down to 0, its first bit the highest; a hex string
stands on the slots from 0 up, its first digit in slot 0; a longer length names no string. -/
def Obligations.OperandsStandOnThePorts : Prop :=
  (∀ (p : BitsPort) (b : BitString), p.len.toNat = b.length → b.length ≤ 32 →
    (∀ i, (h : i < b.length) → p.data.getLsbD (b.length - 1 - i) = b[i]) → p.operand = .str b) ∧
  (∀ p : BitsPort, 32 < p.len.toNat → p.operand = .overlong p.len.toNat) ∧
  (∀ (p : HexPort) (cs : List HexChar), p.len.toNat = cs.length → cs.length ≤ 8 →
    (∀ j, (hj : j < 8) → (h : j < cs.length) → p.ch[j] = cs[j]) → p.operand = .str cs) ∧
  (∀ p : HexPort, 8 < p.len.toNat → p.operand = .overlong p.len.toNat)

/-- R56, R58: a step performs the command presented; what is around it is that the request is gone from the inputs. With
a request given as a number, the step is that of the command the number decodes to. -/
def Obligations.StepPerformsThePresentedCommand : Prop :=
  (∀ (s : State) (r : Request) (rest : List Input), s.inputs = ⟨false, [r]⟩ :: rest →
    step s = exec (decode r) { s with inputs := rest }) ∧
  (∀ (s : State) (nbits w : Nat) (i : Instr), decodeTableWord nbits w = some i →
    step (s.withFetchWord nbits w) = exec i s)

/-- R230: reset makes the register EMPTY; a request at the same instant is not performed and has no response. -/
def Obligations.ResetInputEmptiesTheRegister : Prop :=
  ∀ (s : State) (rs : List Request) (rest : List Input), s.inputs = ⟨true, rs⟩ :: rest →
    ∃ t, step s = .next t ∧ t.iv.status = .empty ∧ t.resp = none

/-- R58, R236: a second request presented at once is refused, by name. -/
def Obligations.OverlappingRequestsAreRefused : Prop :=
  ∀ (s : State) (r q : Request) (more : List Request) (rest : List Input),
    s.inputs = ⟨false, r :: q :: more⟩ :: rest → step s = .refused .overlappingRequests

/-- The model's choice, log entry 4: with nothing presented nothing happens to the register. -/
def Obligations.NothingPresentedChangesNothing : Prop :=
  ∀ s : State, s.inputs = [] ∨ (∃ rest, s.inputs = ⟨false, []⟩ :: rest) →
    ∃ t, step s = .next t ∧ t.iv = s.iv ∧ t.resp = none ∧ t.inputs = s.inputs.tail

/-- R36, R28, R232: after reset the register is EMPTY and no other part of it is defined. -/
def Obligations.ResetStateShowsOnlyEmpty : Prop :=
  State.reset.iv.status = .empty ∧ State.reset.resp = none ∧ State.reset.inputs = [] ∧
  State.reset.readback =
    { status := 0, fmt := none, src := none, mode := none, dec := List.replicate 6 none, fb := List.replicate 6 none,
      word := none, hex := none }

/-- R28: which parts of the register the readback port shows at each status, in the codes of R22 to R24. -/
def Obligations.ReadbackShowsTheDefinedParts : Prop :=
  ∀ s : State,
    (s.readback.status.toNat = match s.iv.status with | .empty => 0 | .filled => 1 | .composed => 2 | .invalid => 3) ∧
    (s.iv.status = .empty ∨ s.iv.status = .invalid →
      s.readback.fmt = none ∧ s.readback.src = none ∧ s.readback.mode = none ∧ s.readback.word = none ∧
      s.readback.hex = none ∧ s.readback.dec = List.replicate 6 none ∧ s.readback.fb = List.replicate 6 none) ∧
    (s.iv.status = .filled ∨ s.iv.status = .composed →
      s.readback.fmt = some (match s.iv.fmt with | .R => 0 | .I => 1 | .J => 2) ∧
      s.readback.src = some (match s.iv.src with | .dec => 0 | .bits => 1 | .hex => 2) ∧
      s.readback.mode = some (match s.iv.mode with | .unsigned => 0 | .signed => 1) ∧
      ∀ k, k < 6 →
        s.readback.dec[k]? = some (if k < s.iv.fmt.nfields then some (IntPort.ofInt (s.iv.decAt k)) else none) ∧
        s.readback.fb[k]? = some (if k < s.iv.fmt.nfields then some (BitsPort.ofString (s.iv.fbAt k)) else none)) ∧
    (s.iv.status = .filled → s.readback.word = none ∧ s.readback.hex = none) ∧
    (s.iv.status = .composed →
      s.readback.word = some s.iv.word ∧
      ∃ p, s.readback.hex = some p ∧ CarriesHex p 8 (fun j => s.iv.word.toNat / 16 ^ (7 - j) % 16))

/-! The primitives. -/

/-- R111: ONES flips every bit and keeps the length, and undoes itself; an operand longer than 32 bits is PORT_WIDTH. -/
def Obligations.OnesFlipsEveryBit : Prop :=
  (∀ b : BitString, b.length ≤ 32 → ∃ c, onesComplement (.str b) = .ok c ∧ onesComplement (.str c) = .ok b) ∧
  ∀ (a : BitsOperand) (s : State),
    (∀ b : BitString, a = .str b → b.length ≤ 32 →
      ∃ t r, exec (.ones a) s = .next t ∧ t.resp = some r ∧ r.Success ∧
        Carries r.rb b.length (nat (b.map (fun x => !x))) ∧ nat (b.map (fun x => !x)) + nat b + 1 = 2 ^ b.length ∧
        t.iv = s.iv) ∧
    (BitsOperandTooLong a →
      ∃ t r, exec (.ones a) s = .next t ∧ t.resp = some r ∧ r.Reports 2 6 0 ∧ t.iv = s.iv)

/-- R112, with R113's closed form: TWOS is the negation modulo `2^n` at the operand's own width. -/
def Obligations.TwosNegatesAtItsWidth : Prop :=
  ∀ (a : BitsOperand) (s : State),
    (∀ b : BitString, a = .str b → b.length ≤ 32 →
      ∃ t r, exec (.twos a) s = .next t ∧ t.resp = some r ∧ r.Success ∧
        Carries r.rb b.length ((nat (b.map (fun x => !x)) + 1) % 2 ^ b.length) ∧
        Carries r.rb b.length ((2 ^ b.length - nat b) % 2 ^ b.length) ∧
        t.iv = s.iv) ∧
    (BitsOperandTooLong a →
      ∃ t r, exec (.twos a) s = .next t ∧ t.resp = some r ∧ r.Reports 2 6 0 ∧ t.iv = s.iv)

/-- R113: the laws of TWOS: closed form, involution (the all-zero string included), and its fixed points. -/
def Obligations.TwosIsAnInvolution : Prop :=
  ∀ a : BitString, a.length ≤ 32 →
    ∃ b, twosComplement (.str a) = .ok b ∧ b = bitsN a.length ((2 ^ a.length - nat a) % 2 ^ a.length) ∧
      twosComplement (.str b) = .ok a ∧
      (b = a ↔ a = List.replicate a.length false ∨ (1 ≤ a.length ∧ a = true :: List.replicate (a.length - 1) false))

/-- R114: BEXT pads on the left, never truncates, and needs a leading bit only where it must replicate one. -/
def Obligations.ExtendPadsAndNeverTruncates : Prop :=
  ∀ (a : BitsOperand) (n : Nat) (x : ExtKind) (s : State),
    (∀ b : BitString, a = .str b → b.length ≤ 32 → n ≤ 32 →
      (n < b.length →
        ∃ t r, exec (.bext a n x) s = .next t ∧ t.resp = some r ∧ r.Reports 1 0 0 ∧ t.iv = s.iv) ∧
      (b.length ≤ n → x = .zero →
        ∃ t r, exec (.bext a n x) s = .next t ∧ t.resp = some r ∧ r.Success ∧ Carries r.rb n (nat b) ∧
          t.iv = s.iv) ∧
      (b.length ≤ n → x = .sign → 0 < b.length ∨ n = 0 →
        ∃ t r, exec (.bext a n x) s = .next t ∧ t.resp = some r ∧ r.Success ∧
          Carries r.rb n (nat b + if 2 ^ b.length ≤ 2 * nat b then 2 ^ n - 2 ^ b.length else 0) ∧
          t.iv = s.iv) ∧
      (b.length = 0 → 0 < n → x = .sign →
        ∃ t r, exec (.bext a n x) s = .next t ∧ t.resp = some r ∧ r.Reports 2 4 0 ∧ t.iv = s.iv)) ∧
    (BitsOperandTooLong a ∨ 32 < n →
      ∃ t r, exec (.bext a n x) s = .next t ∧ t.resp = some r ∧ r.Reports 2 6 0 ∧ t.iv = s.iv)

/-- R115, R116: D2B accepts exactly the magnitudes below `2^n` and gives the value modulo `2^n` on `n` bits. -/
def Obligations.DecimalToBitsIsModularOnItsRange : Prop :=
  ∀ (v : Int) (n : Nat) (s : State),
    (1 ≤ n → n ≤ 32 → v.natAbs < 2 ^ n →
      ∃ (t : State) (r : Response) (x : Nat), exec (.d2b v n) s = .next t ∧ t.resp = some r ∧ r.Success ∧ Carries r.rb n x ∧ (x : Int) = v % 2 ^ n ∧
        t.iv = s.iv) ∧
    (1 ≤ n → n ≤ 32 → 2 ^ n ≤ v.natAbs →
      ∃ t r, exec (.d2b v n) s = .next t ∧ t.resp = some r ∧ r.Reports 1 0 0 ∧ t.iv = s.iv) ∧
    (n = 0 →
      ∃ t r, exec (.d2b v n) s = .next t ∧ t.resp = some r ∧ r.Reports 2 5 0 ∧ t.iv = s.iv) ∧
    (32 < n →
      ∃ t r, exec (.d2b v n) s = .next t ∧ t.resp = some r ∧ r.Reports 2 6 0 ∧ t.iv = s.iv)

/-- R117, R118: B2D reads the string Unsigned as its value and Signed as two's complement. -/
def Obligations.BitsToDecimalReadsTheMode : Prop :=
  ∀ (a : BitsOperand) (m : Mode) (s : State),
    (∀ b : BitString, a = .str b → 1 ≤ b.length → b.length ≤ 32 →
      ∃ t r, exec (.b2d a m) s = .next t ∧ t.resp = some r ∧ r.Success ∧
        r.ri.toInt = valueInMode b.length (nat b) m ∧ t.iv = s.iv) ∧
    (a = .str [] →
      ∃ t r, exec (.b2d a m) s = .next t ∧ t.resp = some r ∧ r.Reports 2 4 0 ∧ t.iv = s.iv) ∧
    (BitsOperandTooLong a →
      ∃ t r, exec (.b2d a m) s = .next t ∧ t.resp = some r ∧ r.Reports 2 6 0 ∧ t.iv = s.iv)

/-- R119: H2B gives four bits per digit, or the leftmost bad character's index, or PORT_WIDTH. -/
def Obligations.HexToBitsExpandsEachDigit : Prop :=
  ∀ (h : HexOperand) (s : State),
    (∀ cs ds, h = .str cs → Spells cs ds → ds.length ≤ 8 →
      ∃ t r, exec (.h2b h) s = .next t ∧ t.resp = some r ∧ r.Success ∧
        Carries r.rb (4 * ds.length) (digitsValue ds) ∧ t.iv = s.iv) ∧
    (∀ cs k, h = .str cs → cs.length ≤ 8 → (hk : k < cs.length) → digit cs[k] = none →
      (∀ i, (hi : i < k) → digit cs[i] ≠ none) →
      ∃ t r, exec (.h2b h) s = .next t ∧ t.resp = some r ∧ r.Reports 2 3 k ∧ t.iv = s.iv) ∧
    (HexOperandTooLong h →
      ∃ t r, exec (.h2b h) s = .next t ∧ t.resp = some r ∧ r.Reports 2 6 0 ∧ t.iv = s.iv)

/-- R120: B2H gives one lowercase digit per nibble, and no length that is not a whole number of nibbles is accepted. -/
def Obligations.BitsToHexGivesEachNibble : Prop :=
  ∀ (a : BitsOperand) (s : State),
    (∀ b : BitString, a = .str b → b.length ≤ 32 → b.length % 4 = 0 →
      ∃ t r, exec (.b2h a) s = .next t ∧ t.resp = some r ∧ r.Success ∧
        CarriesHex r.rh (b.length / 4) (fun j => nat ((b.drop (4 * j)).take 4)) ∧ t.iv = s.iv) ∧
    (∀ b : BitString, a = .str b → b.length ≤ 32 → b.length % 4 ≠ 0 →
      ∃ t r, exec (.b2h a) s = .next t ∧ t.resp = some r ∧ r.Reports 2 0 0 ∧ t.iv = s.iv) ∧
    (BitsOperandTooLong a →
      ∃ t r, exec (.b2h a) s = .next t ∧ t.resp = some r ∧ r.Reports 2 6 0 ∧ t.iv = s.iv)

/-- R121: H2D reads 1 to 8 digits as one integer of `4n` bits in the mode, with the errors of H2B and then of B2D. -/
def Obligations.HexToDecimalReadsTheMode : Prop :=
  ∀ (h : HexOperand) (m : Mode) (s : State),
    (∀ cs ds, h = .str cs → Spells cs ds → 1 ≤ ds.length → ds.length ≤ 8 →
      ∃ t r, exec (.h2d h m) s = .next t ∧ t.resp = some r ∧ r.Success ∧
        r.ri.toInt = valueInMode (4 * ds.length) (digitsValue ds) m ∧ t.iv = s.iv) ∧
    (h = .str [] →
      ∃ t r, exec (.h2d h m) s = .next t ∧ t.resp = some r ∧ r.Reports 2 4 0 ∧ t.iv = s.iv) ∧
    (∀ cs k, h = .str cs → cs.length ≤ 8 → (hk : k < cs.length) → digit cs[k] = none →
      (∀ i, (hi : i < k) → digit cs[i] ≠ none) →
      ∃ t r, exec (.h2d h m) s = .next t ∧ t.resp = some r ∧ r.Reports 2 3 k ∧ t.iv = s.iv) ∧
    (HexOperandTooLong h →
      ∃ t r, exec (.h2d h m) s = .next t ∧ t.resp = some r ∧ r.Reports 2 6 0 ∧ t.iv = s.iv)

/-- R122: D2H gives the value modulo `16^n` as exactly `n` digits. -/
def Obligations.DecimalToHexGivesExactlyItsDigits : Prop :=
  ∀ (v : Int) (n : Nat) (s : State),
    (1 ≤ n → n ≤ 8 → v.natAbs < 16 ^ n →
      ∃ (t : State) (r : Response) (x : Nat), exec (.d2h v n) s = .next t ∧ t.resp = some r ∧ r.Success ∧ (x : Int) = v % 16 ^ n ∧
        CarriesHex r.rh n (fun j => x / 16 ^ (n - 1 - j) % 16) ∧ t.iv = s.iv) ∧
    (1 ≤ n → n ≤ 8 → 16 ^ n ≤ v.natAbs →
      ∃ t r, exec (.d2h v n) s = .next t ∧ t.resp = some r ∧ r.Reports 1 0 0 ∧ t.iv = s.iv) ∧
    (n = 0 →
      ∃ t r, exec (.d2h v n) s = .next t ∧ t.resp = some r ∧ r.Reports 2 5 0 ∧ t.iv = s.iv) ∧
    (8 < n →
      ∃ t r, exec (.d2h v n) s = .next t ∧ t.resp = some r ∧ r.Reports 2 6 0 ∧ t.iv = s.iv)

/-- R110: a primitive writes only its response and never reads the register: two blocks whose registers differ (and whose
free values are drawn alike) answer a primitive alike, each keeping its own register. -/
def Obligations.PrimitivesNeitherReadNorWriteTheRegister : Prop :=
  ∀ (i : Instr) (s s' : State), isPrimitive i = true → s.free = s'.free →
    ∃ t t', exec i s = .next t ∧ exec i s' = .next t' ∧ t.resp = t'.resp ∧ t.iv = s.iv ∧ t'.iv = s'.iv ∧
      t.inputs = s.inputs ∧ t'.inputs = s'.inputs

/-- R123: the integer laws of the primitives, each as the rule numbers it. -/
def Obligations.ConversionRoundTrips : Prop :=
  (∀ (v : Int) (w : Nat), 1 ≤ w → w ≤ 32 → -(2 ^ (w - 1)) ≤ v → v ≤ 2 ^ (w - 1) - 1 →
    ∃ b, decimalToBits v w = .ok b ∧ bitsToDecimal (.str b) .signed = .ok v) ∧
  (∀ (v : Int) (w : Nat), 1 ≤ w → w ≤ 32 → 0 ≤ v → v ≤ 2 ^ w - 1 →
    ∃ b, decimalToBits v w = .ok b ∧ bitsToDecimal (.str b) .unsigned = .ok v) ∧
  (∀ (v : Int) (w : Nat) (b : BitString), decimalToBits v w = .ok b → b.length = w) ∧
  (∀ a : BitString, a.length ≤ 32 → ∃ b, twosComplement (.str a) = .ok b ∧ twosComplement (.str b) = .ok a) ∧
  (∀ (cs : List HexChar) (ds : List Nat), Spells cs ds → ds.length ≤ 8 →
    ∃ b, hexToBits (.str cs) = .ok b ∧ bitsToHex (.str b) = .ok cs) ∧
  (∀ a : BitString, a.length ≤ 32 → a.length % 4 = 0 →
    ∃ cs, bitsToHex (.str a) = .ok cs ∧ hexToBits (.str cs) = .ok a) ∧
  (∀ v : Int, -(2 ^ 31) ≤ v → v ≤ 2 ^ 31 - 1 →
    ∃ cs, decimalToHex v 8 = .ok cs ∧ hexToDecimal (.str cs) .signed = .ok v) ∧
  (∀ (v : Int) (w : Nat), 1 ≤ w → w ≤ 32 → v.natAbs ≤ 2 ^ w - 1 →
    ∃ b c, decimalToBits v w = .ok b ∧ twosComplement (.str b) = .ok c ∧ decimalToBits (-v) w = .ok c)

/-- R124: outside the signed or unsigned range a value comes back shifted by `2^w`. -/
def Obligations.OutOfRangeValuesComeBackShifted : Prop :=
  ∀ (v : Int) (w : Nat), 1 ≤ w → w ≤ 32 →
    (2 ^ (w - 1) ≤ v → v ≤ 2 ^ w - 1 →
      ∃ b, decimalToBits v w = .ok b ∧ bitsToDecimal (.str b) .signed = .ok (v - 2 ^ w)) ∧
    (-(2 ^ w - 1) ≤ v → v ≤ -(2 ^ (w - 1) + 1) →
      ∃ b, decimalToBits v w = .ok b ∧ bitsToDecimal (.str b) .signed = .ok (v + 2 ^ w)) ∧
    (-(2 ^ w - 1) ≤ v → v < 0 →
      ∃ b, decimalToBits v w = .ok b ∧ bitsToDecimal (.str b) .unsigned = .ok (v + 2 ^ w))

/-- R10: every integer result lies in -2^31 to 2^32-1. -/
def Obligations.IntegerResultsFitThePort : Prop :=
  (∀ (a : BitsOperand) (m : Mode) (v : Int), bitsToDecimal a m = .ok v → -(2 ^ 31) ≤ v ∧ v ≤ 2 ^ 32 - 1) ∧
  (∀ (h : HexOperand) (m : Mode) (v : Int), hexToDecimal h m = .ok v → -(2 ^ 31) ≤ v ∧ v ≤ 2 ^ 32 - 1)

/-- R17, R84: the characters of the sixteen digits are '0' to '9' and lowercase 'a' to 'f' (their code values are from
general knowledge: PRESUMED, log entry 11), and `digit` is the inverse of `chr` on exactly those characters. -/
def Obligations.DigitInvertsCharacter : Prop :=
  (∀ d, d < 10 → (chr d).toNat = 0x30 + d) ∧ (∀ d, 10 ≤ d → d < 16 → (chr d).toNat = 0x61 + (d - 10)) ∧
  (∀ d, d < 16 → digit (chr d) = some d) ∧ (∀ c d, digit c = some d → d < 16 ∧ chr d = c)

/-! The format codec. -/

/-- R8, R70 to R76: the layout, widths, offsets and signed-capable field of each format, the slot widths of R21, and that
the fields fill all 32 bits in layout order, with no gap and no overlap: each field is the word's slice at its offset. -/
def Obligations.FieldsFillTheWord : Prop :=
  (Fmt.R.layout = [.op, .rs, .rt, .rd, .shamt, .funct] ∧ Fmt.I.layout = [.op, .rs, .rt, .immediate] ∧
    Fmt.J.layout = [.op, .address]) ∧
  (Fmt.R.nfields = 6 ∧ Fmt.I.nfields = 4 ∧ Fmt.J.nfields = 2) ∧
  ((List.range 6).map Fmt.R.width = [6, 5, 5, 5, 5, 6] ∧ (List.range 4).map Fmt.I.width = [6, 5, 5, 16] ∧
    (List.range 2).map Fmt.J.width = [6, 26]) ∧
  ((List.range 6).map Fmt.R.offset = [0, 6, 11, 16, 21, 26] ∧ (List.range 4).map Fmt.I.offset = [0, 6, 11, 16] ∧
    (List.range 2).map Fmt.J.offset = [0, 6]) ∧
  (Fmt.R.signedField = some 4 ∧ Fmt.I.signedField = some 3 ∧ Fmt.J.signedField = none) ∧
  (List.range 6).map slotWidth = [6, 26, 5, 16, 5, 6] ∧
  ∀ (F : Fmt) (u : BitString), u.length = 32 →
    (F.slices u).flatten = u ∧ F.offset 0 = 0 ∧ F.offset F.nfields = 32 ∧
    ∀ k, k < F.nfields → F.offset (k + 1) = F.offset k + F.width k ∧ (F.slice k u).length = F.width k ∧
      nat (F.slice k u) = nat u / 2 ^ (32 - F.offset k - F.width k) % 2 ^ F.width k

/-- R150 to R153: FILLD stores the caller's values as given and, for each, its two's-complement bits at its field's
width; the first field in layout order whose magnitude does not fit is reported and the value is INVALID. -/
def Obligations.FillDecimalStoresBothViews : Prop :=
  ∀ (i : Instr) (F : Fmt) (d : List Int) (s : State), asFillDecimal i = some (F, d) →
    ((∀ k, k < F.nfields → (d.getD k 0).natAbs < 2 ^ F.width k) →
      ∃ t r, exec i s = .next t ∧ t.resp = some r ∧ r.Success ∧ t.iv.status = .filled ∧
        t.iv.fmt = F ∧ t.iv.src = .dec ∧ t.iv.mode = .unsigned ∧
        ∀ k, k < F.nfields → t.iv.decAt k = d.getD k 0 ∧ (t.iv.fbAt k).length = F.width k ∧
          (nat (t.iv.fbAt k) : Int) = d.getD k 0 % 2 ^ F.width k) ∧
    (∀ k, k < F.nfields → 2 ^ F.width k ≤ (d.getD k 0).natAbs →
      (∀ j, j < k → (d.getD j 0).natAbs < 2 ^ F.width j) →
      ∃ t r, exec i s = .next t ∧ t.resp = some r ∧ r.Reports 1 0 k ∧ t.iv.status = .invalid)

/-- R154 to R157: FILLB stores the bit strings and, for each, the integer it stands for: Unsigned but for the
signed-capable field (R76: shamt, k = 4, in R; immediate, k = 3, in I; none in J), which is read in the caller's mode. The first field in layout order that has not its
width is reported and the value is INVALID. -/
def Obligations.FillBitsStoresBothViews : Prop :=
  ∀ (i : Instr) (F : Fmt) (a : List BitsOperand) (m : Mode) (s : State), asFillBits i = some (F, a, m) →
    (∀ b : List BitString, a = b.map .str → (∀ k, k < F.nfields → (b.getD k []).length = F.width k) →
      ∃ t r, exec i s = .next t ∧ t.resp = some r ∧ r.Success ∧ t.iv.status = .filled ∧
        t.iv.fmt = F ∧ t.iv.src = .bits ∧ t.iv.mode = m ∧
        ∀ k, k < F.nfields → t.iv.fbAt k = b.getD k [] ∧
          t.iv.decAt k =
            valueInMode (F.width k) (nat (b.getD k [])) (if F = .R ∧ k = 4 ∨ F = .I ∧ k = 3 then m else .unsigned)) ∧
    (∀ k, k < F.nfields → (∀ b, a.getD k (.overlong 0) = .str b → b.length ≠ F.width k) →
      (∀ j, j < k → ∃ b, a.getD j (.overlong 0) = .str b ∧ b.length = F.width j) →
      ∃ t r, exec i s = .next t ∧ t.resp = some r ∧ r.Reports 2 1 k ∧ t.iv.status = .invalid)

/-- R158 to R161: COMPOSE of a filled or composed value of its format writes the status and the word and nothing else of
the register, and answers the word and its eight digits; of a consistent register the word is the fields in layout
order. Otherwise it is a StateError and the register is unchanged. -/
def Obligations.ComposeJoinsTheFields : Prop :=
  ∀ (i : Instr) (F : Fmt) (s : State), asCompose i = some F →
    ((s.iv.status = .filled ∨ s.iv.status = .composed) → s.iv.fmt = F →
      ∃ t r, exec i s = .next t ∧ t.resp = some r ∧ r.Success ∧
        t.iv = { s.iv with status := .composed, word := t.iv.word } ∧
        Carries r.rb 32 t.iv.word.toNat ∧ CarriesHex r.rh 8 (fun j => t.iv.word.toNat / 16 ^ (7 - j) % 16) ∧
        (s.iv.Consistent → ∀ k, k < F.nfields →
          t.iv.word.toNat / 2 ^ (32 - F.offset k - F.width k) % 2 ^ F.width k = nat (s.iv.fbAt k))) ∧
    (¬ ((s.iv.status = .filled ∨ s.iv.status = .composed) ∧ s.iv.fmt = F) →
      ∃ t r, exec i s = .next t ∧ t.resp = some r ∧ r.Reports 3 0 0 ∧ t.iv = s.iv)

/-- R162 to R165: DECODE of eight lowercase digits stores the word, each field's bits, and the integer they stand for,
Unsigned but for the signed-capable field of R76 (k = 4 in R, k = 3 in I, none in J); the value is COMPOSED. A word that is not eight digits, or has a bad character, is reported and the value is INVALID. -/
def Obligations.DecodeHexSlicesTheWord : Prop :=
  ∀ (i : Instr) (F : Fmt) (h : HexOperand) (m : Mode) (s : State), asDecodeHex i = some (F, h, m) →
    (∀ cs ds, h = .str cs → Spells cs ds → ds.length = 8 →
      ∃ t r, exec i s = .next t ∧ t.resp = some r ∧ r.Success ∧ t.iv.status = .composed ∧
        t.iv.fmt = F ∧ t.iv.src = .hex ∧ t.iv.mode = m ∧ t.iv.word.toNat = digitsValue ds ∧
        ∀ k, k < F.nfields → (t.iv.fbAt k).length = F.width k ∧
          nat (t.iv.fbAt k) = digitsValue ds / 2 ^ (32 - F.offset k - F.width k) % 2 ^ F.width k ∧
          t.iv.decAt k =
            valueInMode (F.width k) (nat (t.iv.fbAt k)) (if F = .R ∧ k = 4 ∨ F = .I ∧ k = 3 then m else .unsigned)) ∧
    ((∀ cs, h = .str cs → cs.length ≠ 8) →
      ∃ t r, exec i s = .next t ∧ t.resp = some r ∧ r.Reports 2 2 0 ∧ t.iv.status = .invalid) ∧
    (∀ cs k, h = .str cs → cs.length = 8 → (hk : k < cs.length) → digit cs[k] = none →
      (∀ j, (hj : j < k) → digit cs[j] ≠ none) →
      ∃ t r, exec i s = .next t ∧ t.resp = some r ∧ r.Reports 2 3 k ∧ t.iv.status = .invalid)

/-- R86, R205: a request with a reserved code, and so each of the eleven commands such a request presents, writes nothing
to the register and answers IllegalCommand. -/
def Obligations.ReservedCodesAreIllegal : Prop :=
  (∀ r : Request, r.cmd.toNat ∈ [0x09, 0x0A, 0x0B, 0x0C, 0x0D, 0x0E, 0x0F, 0x13, 0x17, 0x1B, 0x1F] →
    isReserved (decode r) = true) ∧
  (∀ (i : Instr) (s : State), isReserved i = true →
    ∃ t r, exec i s = .next t ∧ t.resp = some r ∧ r.Reports 4 0 0 ∧ t.iv = s.iv)

/-- R166, law 1: decimal values in the unsigned range of their fields (or, for the signed-capable field read Signed, in
its signed range) come back when the hex word that COMPOSE answers is presented to DECODE. -/
def Obligations.DecimalValuesSurviveTheWord : Prop :=
  ∀ (f c : Instr) (F : Fmt) (d : List Int) (m : Mode) (s : State),
    asFillDecimal f = some (F, d) → asCompose c = some F →
    (∀ k, k < F.nfields →
      (0 ≤ d.getD k 0 ∧ d.getD k 0 < 2 ^ F.width k ∧ ¬ ((F = .R ∧ k = 4 ∨ F = .I ∧ k = 3) ∧ m = .signed)) ∨
      ((F = .R ∧ k = 4 ∨ F = .I ∧ k = 3) ∧ m = .signed ∧ -(2 ^ (F.width k - 1)) ≤ d.getD k 0 ∧
        d.getD k 0 < 2 ^ (F.width k - 1))) →
    ∃ t u r, exec f s = .next t ∧ exec c t = .next u ∧ u.resp = some r ∧ r.Success ∧
      ∀ g, asDecodeHex g = some (F, r.rh.operand, m) →
        ∃ x, exec g u = .next x ∧ x.iv.status = .composed ∧ x.iv.fmt = F ∧
          ∀ k, k < F.nfields → x.iv.decAt k = d.getD k 0

/-- R166, law 2: a word decoded and composed again is the same eight digits. -/
def Obligations.WordsSurviveDecodeAndCompose : Prop :=
  ∀ (g c : Instr) (F : Fmt) (cs : List HexChar) (ds : List Nat) (m : Mode) (s : State),
    asDecodeHex g = some (F, .str cs, m) → asCompose c = some F → Spells cs ds → ds.length = 8 →
    ∃ t u r, exec g s = .next t ∧ exec c t = .next u ∧ u.resp = some r ∧ r.Success ∧ r.rh = HexPort.ofString cs ∧
      u.iv = t.iv

/-- R166, law 3: bit fields come back when the hex word that COMPOSE answers is presented to DECODE, in any mode. -/
def Obligations.BitFieldsSurviveTheWord : Prop :=
  ∀ (f c : Instr) (F : Fmt) (b : List BitString) (m : Mode) (s : State),
    asFillBits f = some (F, b.map .str, m) → asCompose c = some F →
    (∀ k, k < F.nfields → (b.getD k []).length = F.width k) →
    ∃ t u r, exec f s = .next t ∧ exec c t = .next u ∧ u.resp = some r ∧ r.Success ∧
      ∀ g m', asDecodeHex g = some (F, r.rh.operand, m') →
        ∃ x, exec g u = .next x ∧ x.iv.status = .composed ∧ x.iv.fmt = F ∧
          ∀ k, k < F.nfields → x.iv.fbAt k = b.getD k []

/-- R166, law 4: the mode of a DECODE changes only the decimal view of the signed-capable field (and the stored mode). -/
def Obligations.ModeChangesOneDecimalView : Prop :=
  ∀ (g g' : Instr) (F : Fmt) (cs : List HexChar) (ds : List Nat) (m m' : Mode) (s s' : State),
    asDecodeHex g = some (F, .str cs, m) → asDecodeHex g' = some (F, .str cs, m') → Spells cs ds → ds.length = 8 →
    ∃ t t', exec g s = .next t ∧ exec g' s' = .next t' ∧ t.iv.word = t'.iv.word ∧
      ∀ k, k < F.nfields → t.iv.fbAt k = t'.iv.fbAt k ∧ (¬ (F = .R ∧ k = 4 ∨ F = .I ∧ k = 3) → t.iv.decAt k = t'.iv.decAt k)

/-! The register, the responses, and the block as a whole. -/

/-- R237, R200: every command, with every operand and in every state, is performed and produces one response. -/
def Obligations.EveryCommandCompletes : Prop :=
  ∀ (i : Instr) (s : State), ∃ t r, exec i s = .next t ∧ t.resp = some r ∧ t.inputs = s.inputs

/-- R208: a command that raises an error leaves a fill's or decode's register INVALID and every other command's register
unchanged. -/
def Obligations.ErrorsLeaveInvalidOrUnchanged : Prop :=
  ∀ (i : Instr) (s t : State) (r : Response), exec i s = .next t → t.resp = some r → r.err ≠ 0 →
    (startsValue i = true → t.iv.status = .invalid) ∧ (startsValue i = false → t.iv = s.iv)

/-- R29, R110, R208: the register changes only by a command that starts a new value, or by a COMPOSE, which changes only
the status and the word. -/
def Obligations.OnlyFillsDecodesAndComposeTouchTheRegister : Prop :=
  ∀ (i : Instr) (s t : State), exec i s = .next t → startsValue i = false →
    t.iv = s.iv ∨ ((asCompose i).isSome ∧ t.iv = { s.iv with status := .composed, word := t.iv.word })

/-- R206, R202: the codes a response can carry: an error class of 0 to 4, a sub-cause only with PRECONDITION and never 7,
an index only where the rule gives one. -/
def Obligations.ResponseFieldsStayInRange : Prop :=
  ∀ (i : Instr) (s t : State) (r : Response), exec i s = .next t → t.resp = some r →
    r.err.toNat ≤ 4 ∧ (r.err.toNat ≠ 2 → r.sub = 0) ∧ r.sub.toNat ≤ 6 ∧
    (r.info ≠ 0 →
      (r.err.toNat = 1 ∧ (asFillDecimal i).isSome ∧ r.info.toNat ≤ 5) ∨
      (r.err.toNat = 2 ∧ r.sub.toNat = 1 ∧ (asFillBits i).isSome ∧ r.info.toNat ≤ 5) ∨
      (r.err.toNat = 2 ∧ r.sub.toNat = 3))

/-- R203: PORT_WIDTH is reported for exactly these operands, and by a primitive only. -/
def Obligations.PortWidthIsReportedExactly : Prop :=
  ∀ (i : Instr) (s t : State) (r : Response), exec i s = .next t → t.resp = some r →
    ((r.err.toNat = 2 ∧ r.sub.toNat = 6) ↔ PortTooNarrow i)

/-- R89: the format code of a command that succeeds is the register's format code. -/
def Obligations.FormatCodesAgree : Prop :=
  ∀ (i : Instr) (s t : State) (r : Response), exec i s = .next t → t.resp = some r → r.err = 0 →
    (startsValue i = true → t.iv.fmt.code.toNat = i.code.toNat % 4) ∧
    ((asCompose i).isSome → s.iv.fmt.code.toNat = i.code.toNat % 4)

/-- The model's own inputs (log entry 5): a step uses up what was presented for it and leaves the rest as it was. -/
def Obligations.StepUsesUpItsInputs : Prop :=
  ∀ s t : State, step s = .next t → t.inputs = s.inputs.tail

/-- The invariant of the register holds at reset. -/
def Obligations.ConsistentAtReset : Prop := State.reset.Inv

/-- R21 to R26: from every state whose register is consistent and fits its slots, whatever is presented, a step leaves a
register that is consistent and fits its slots. -/
def Obligations.StepKeepsTheRegisterConsistent : Prop :=
  ∀ s t : State, s.Inv → step s = .next t → t.Inv

/-- R54: of a consistent COMPOSED register each field is the word's slice at that field's offsets. -/
def Obligations.ComposedWordSlicesAreTheFields : Prop :=
  ∀ v : IV, v.Consistent → v.status = .composed →
    ∀ k, k < v.fmt.nfields → v.fmt.slice k (wordBits v.word) = v.fbAt k

/-- R26: the hex view is always exactly eight lowercase digits, and they are the word's. -/
def Obligations.HexviewIsEightDigitsOfTheWord : Prop :=
  ∀ v : IV, ∃ ds, Spells v.hexview ds ∧ ds.length = 8 ∧ digitsValue ds = v.word.toNat ∧
    hexToBits (.str v.hexview) = .ok (wordBits v.word)

/-- R93, R204: when the first command of a pseudo-command fails, the second still runs and answers StateError, and the
register stays INVALID. -/
def Obligations.ComposeAfterAFailedFillIsAStateError : Prop :=
  ∀ (f c : Instr) (s t : State) (r : Response),
    startsValue f = true → (asCompose c).isSome → exec f s = .next t → t.resp = some r → r.err ≠ 0 →
    ∃ u q, runCommands [f, c] s = .next u ∧ u.resp = some q ∧ q.Reports 3 0 0 ∧ u.iv.status = .invalid

/-- R58, R56: a sequence of well-formed commands presented on the inputs is performed one a step, in order, each seeing
what the one before it left. -/
def Obligations.PresentedCommandsRunInOrder : Prop :=
  ∀ (is : List Instr) (s : State), (∀ i ∈ is, i.wf = true) →
    Host.Core.run core is.length (s.presentAll is) = runCommands is s

/-- R57: a step of one block changes no other block, and what the stepped block does depends on no other block. -/
def Obligations.BlocksShareNoState : Prop :=
  ∀ (sys sys' : System) (k : Nat) (s : State), sys[k]? = some s → sys'[k]? = some s →
    ∀ t, System.stepBlock k sys = .next t →
      (∀ j, j ≠ k → t[j]? = sys[j]?) ∧ ∃ t', System.stepBlock k sys' = .next t' ∧ t'[k]? = t[k]?
end

