-- ==== Sys2Proof/Laws/Bits.lean ====
section
/-! SUPPORT. Laws/Bits.lean: what the bit-string functions compute (00_scope.md rules R14 to R17). -/

namespace Sys2Proof

/-! Lengths. -/

@[simp] theorem bitsN_length (n k : Nat) : (bitsN n k).length = n := by
  induction n with
  | zero => rfl
  | succ n ih => simp [bitsN, ih]

@[simp] theorem onesBits_length (a : BitString) : (onesBits a).length = a.length := by simp [onesBits]

@[simp] theorem twosBits_length (a : BitString) : (twosBits a).length = a.length := by simp [twosBits]

theorem zext_length {N : Nat} {s : BitString} (h : s.length ≤ N) : (zext N s).length = N := by
  simp [zext]; omega

theorem sext_length {N : Nat} {s : BitString} (h : s.length ≤ N) : (sext N s).length = N := by
  simp [sext]; omega

@[simp] theorem wordBits_length (w : Word) : (wordBits w).length = 32 := bitsN_length _ _

/-! Values. -/

@[simp] theorem nat_nil : nat [] = 0 := rfl

@[simp] theorem nat_cons (b : Bool) (s : BitString) : nat (b :: s) = b.toNat * 2 ^ s.length + nat s := rfl

theorem nat_lt (s : BitString) : nat s < 2 ^ s.length := by
  induction s with
  | nil => simp
  | cons b s ih =>
    cases b <;> simp [pow_succ] <;> omega

theorem nat_append (s t : BitString) : nat (s ++ t) = nat s * 2 ^ t.length + nat t := by
  induction s with
  | nil => simp
  | cons b s ih => simp [ih, pow_add]; ring

@[simp] theorem nat_replicate_false (n : Nat) : nat (List.replicate n false) = 0 := by
  induction n with
  | zero => rfl
  | succ n ih => simp [List.replicate_succ, ih]

theorem nat_replicate_true (n : Nat) : nat (List.replicate n true) = 2 ^ n - 1 := by
  induction n with
  | zero => rfl
  | succ n ih =>
    have := Nat.one_le_two_pow (n := n)
    simp [List.replicate_succ, ih, pow_succ]; omega

/-- `nat(bits_n(k))` is `k` modulo `2^n`. -/
@[simp] theorem nat_bitsN (n k : Nat) : nat (bitsN n k) = k % 2 ^ n := by
  induction n with
  | zero => simp [bitsN, Nat.mod_one]
  | succ n ih =>
    have h : (k.testBit n).toNat = k / 2 ^ n % 2 := by
      rw [Nat.testBit_eq_decide_div_mod_eq]
      rcases Nat.mod_two_eq_zero_or_one (k / 2 ^ n) with e | e <;> simp [e]
    simp only [bitsN, nat_cons, bitsN_length, ih, h]
    rw [Nat.mod_pow_succ]
    ring

/-- `bits_n` is the inverse of `nat` on strings of length `n` (R14). -/
theorem bitsN_nat (s : BitString) : bitsN s.length (nat s) = s := by
  suffices h : ∀ m, bitsN s.length (m * 2 ^ s.length + nat s) = s by simpa using h 0
  induction s with
  | nil => intro m; rfl
  | cons b s ih =>
    intro m
    have hl := nat_lt s
    have e : m * 2 ^ (s.length + 1) + (b.toNat * 2 ^ s.length + nat s)
        = (2 * m + b.toNat) * 2 ^ s.length + nat s := by rw [pow_succ]; ring
    simp only [List.length_cons, bitsN, nat_cons, e, ih]
    congr 1
    rw [Nat.testBit_eq_decide_div_mod_eq, Nat.add_comm, Nat.add_mul_div_right _ _ (by positivity),
      Nat.div_eq_of_lt hl]
    cases b <;> simp

theorem bitsN_nat_of_length {s : BitString} {n : Nat} (h : s.length = n) : bitsN n (nat s) = s := by
  subst h; exact bitsN_nat s

/-- A string is fixed by its length and its value. -/
theorem eq_of_nat_eq {s t : BitString} (hl : s.length = t.length) (hn : nat s = nat t) : s = t := by
  rw [← bitsN_nat s, ← bitsN_nat t, hl, hn]

theorem bitsN_mod (n k : Nat) : bitsN n (k % 2 ^ n) = bitsN n k :=
  eq_of_nat_eq (by simp) (by simp)

/-- The leading bit says whether the value is in the upper half. -/
theorem headD_eq (s : BitString) (h : 0 < s.length) : s.headD false = decide (2 ^ s.length ≤ 2 * nat s) := by
  cases s with
  | nil => simp at h
  | cons b s =>
    have := nat_lt s
    cases b <;> simp [pow_succ] <;> omega

/-! Complements (R111 to R113). -/

theorem nat_onesBits (a : BitString) : nat (onesBits a) + nat a + 1 = 2 ^ a.length := by
  induction a with
  | nil => rfl
  | cons b a ih =>
    simp only [onesBits, List.map_cons, nat_cons, List.length_map, List.length_cons, pow_succ] at ih ⊢
    cases b <;> simp at ih ⊢ <;> omega

/-- `TWOS(a) = bits_n((2^n - nat(a)) mod 2^n)` (R113). -/
theorem nat_twosBits (a : BitString) : nat (twosBits a) = (2 ^ a.length - nat a) % 2 ^ a.length := by
  have h := nat_onesBits a
  have e : nat (onesBits a) + 1 = 2 ^ a.length - nat a := by omega
  simp [twosBits, e]

theorem twosBits_twosBits (a : BitString) : twosBits (twosBits a) = a := by
  apply eq_of_nat_eq (by simp)
  have hl := nat_lt a
  rw [nat_twosBits, nat_twosBits, twosBits_length]
  rcases Nat.eq_zero_or_pos (nat a) with h0 | h0
  · simp [h0]
  · rw [Nat.mod_eq_of_lt (show 2 ^ a.length - nat a < 2 ^ a.length by omega),
      Nat.mod_eq_of_lt (by omega)]
    omega

/-! Extension (R16). -/

theorem nat_zext (N : Nat) (s : BitString) : nat (zext N s) = nat s := by simp [zext, nat_append]

theorem nat_sext {N : Nat} {s : BitString} (h : s.length ≤ N) :
    nat (sext N s) = nat s + if s.headD false then 2 ^ N - 2 ^ s.length else 0 := by
  unfold sext
  rw [nat_append]
  cases s.headD false with
  | false => simp
  | true =>
    have e : 2 ^ (N - s.length) * 2 ^ s.length = 2 ^ N := by rw [← pow_add]; congr 1; omega
    simp only [nat_replicate_true, Nat.sub_mul, e, one_mul, if_true]
    omega

/-! The minimal binary form (R14). -/

theorem minbin_length_le {m t : Nat} (ht : 0 < t) : (minbin m).length ≤ t ↔ m < 2 ^ t := by
  unfold minbin
  split
  · next h => subst h; simp; omega
  · next h =>
    rw [bitsN_length, Nat.succ_le_iff, Nat.log2_lt h]

@[simp] theorem nat_minbin (m : Nat) : nat (minbin m) = m := by
  unfold minbin
  split
  · next h => subst h; rfl
  · rw [nat_bitsN]; exact Nat.mod_eq_of_lt Nat.lt_log2_self

/-! The value in a mode (R118). -/

theorem valueOf_unsigned (a : BitString) : valueOf a .unsigned = nat a := rfl

theorem valueOf_signed {a : BitString} (h : 0 < a.length) :
    valueOf a .signed = if 2 ^ a.length ≤ 2 * nat a then (nat a : Int) - 2 ^ a.length else nat a := by
  have hl := nat_lt a
  have hp : 0 < 2 ^ a.length := by positivity
  simp only [valueOf, headD_eq a h, decide_eq_true_eq]
  split
  · next hh =>
    rw [nat_twosBits, Nat.mod_eq_of_lt (by omega)]
    push_cast [Nat.cast_sub hl.le]
    ring
  · rfl

/-- Every value fits the 33-bit port (R10). -/
theorem valueOf_bounds {a : BitString} (h0 : 0 < a.length) (h : a.length ≤ 32) (m : Mode) :
    -(2 ^ 31) ≤ valueOf a m ∧ valueOf a m < 2 ^ 32 := by
  have hl := nat_lt a
  have hp : 2 ^ a.length ≤ 2 ^ 32 := Nat.pow_le_pow_right (by norm_num) h
  cases m with
  | unsigned =>
    rw [valueOf_unsigned]; norm_num at hp ⊢; omega
  | signed =>
    rw [valueOf_signed h0]
    have hc : ((2 ^ a.length : Nat) : Int) = 2 ^ a.length := by push_cast; rfl
    norm_num at hp ⊢
    split <;> (rw [← hc] at *; omega)

/-! Hex characters (R17). -/

theorem digit_chr {d : Nat} (h : d < 16) : digit (chr d) = some d := by
  revert d; decide

theorem chr_of_digit {c : HexChar} {d : Nat} (h : digit c = some d) : d < 16 ∧ chr d = c := by
  have hc : c = BitVec.ofNat 8 c.toNat := by simp
  revert h
  rw [hc]
  have := c.isLt
  generalize c.toNat = n at *
  intro h
  unfold digit at h
  simp only [BitVec.toNat_ofNat] at h
  split at h
  · next hh => cases h; unfold chr; split <;> (refine ⟨by omega, ?_⟩) <;> (congr 1; omega)
  · split at h
    · next hh => cases h; unfold chr; split <;> (refine ⟨by omega, ?_⟩) <;> (congr 1; omega)
    · cases h

theorem chr_injective {d e : Nat} (hd : d < 16) (he : e < 16) (h : chr d = chr e) : d = e := by
  have := congrArg digit h
  rw [digit_chr hd, digit_chr he] at this
  exact Option.some.inj this

/-! Words. -/

theorem wordOf_wordBits (w : Word) : wordOf (wordBits w) = w := by
  unfold wordOf wordBits
  rw [nat_bitsN, Nat.mod_eq_of_lt w.isLt, BitVec.ofNat_toNat, BitVec.setWidth_eq]

theorem wordBits_wordOf {s : BitString} (h : s.length = 32) : wordBits (wordOf s) = s := by
  have hl := nat_lt s
  rw [h] at hl
  unfold wordOf wordBits
  rw [BitVec.toNat_ofNat, Nat.mod_eq_of_lt hl]
  exact bitsN_nat_of_length h

@[simp] theorem nat_wordBits (w : Word) : nat (wordBits w) = w.toNat := by
  simp [wordBits, Nat.mod_eq_of_lt w.isLt]

end Sys2Proof
end

