-- ==== Sys2Proof/Laws/Hex.lean ====
section
/-! SUPPORT. Laws/Hex.lean: nibbles, digits and the two hex conversions (20_memory.md rule R53, 40_bit_primitives.md rules
R119, R120). -/

namespace Sys2Proof

open Machine

/-- The digits of a string, one per nibble, left to right. -/
theorem nibble_value_lt {q : BitString} (h : q.length = 4) : nat q < 16 := by
  have := nat_lt q
  rw [h] at this
  exact this

theorem nibbles_length (s : BitString) : (nibbles s).length = s.length / 4 := by
  induction s using nibbles.induct with
  | case1 a b c d rest ih => simp [nibbles, ih]; omega
  | case2 s h =>
    match s, h with
    | [], _ => rfl
    | [_], _ => simp [nibbles]
    | [_, _], _ => simp [nibbles]
    | [_, _, _], _ => simp [nibbles]
    | a :: b :: c :: d :: r, h => exact absurd rfl (h a b c d r)

theorem length_of_mem_nibbles {s q : BitString} (h : q ∈ nibbles s) : q.length = 4 := by
  induction s using nibbles.induct with
  | case1 a b c d rest ih =>
    simp only [nibbles, List.mem_cons] at h
    rcases h with rfl | h
    · rfl
    · exact ih h
  | case2 s hs =>
    match s, hs, h with
    | [], _, h => cases h
    | [_], _, h => cases h
    | [_, _], _, h => cases h
    | [_, _, _], _, h => cases h
    | a :: b :: c :: d :: r, hs, _ => exact absurd rfl (hs a b c d r)

@[simp] theorem hexChars_length (s : BitString) : (hexChars s).length = s.length / 4 := by
  simp [hexChars, nibbles_length]

/-- A whole number of nibbles is their concatenation. -/
theorem nibbles_flatten {s : BitString} (h : s.length % 4 = 0) : (nibbles s).flatten = s := by
  induction s using nibbles.induct with
  | case1 a b c d rest ih =>
    simp only [List.length_cons] at h
    simp [nibbles, ih (by omega)]
  | case2 s hs =>
    match s, hs, h with
    | [], _, _ => rfl
    | [_], _, h => simp at h
    | [_, _], _, h => simp at h
    | [_, _, _], _, h => simp at h
    | a :: b :: c :: d :: r, hs, _ => exact absurd rfl (hs a b c d r)

theorem nibbles_append {q s : BitString} (h : q.length = 4) : nibbles (q ++ s) = q :: nibbles s := by
  match q, h with
  | [a, b, c, d], _ => rfl

/-- The bits of a list of digits. -/
theorem hexChars_flatMap {ds : List Nat} (h : ∀ d ∈ ds, d < 16) :
    hexChars (ds.flatMap (bitsN 4)) = ds.map chr := by
  induction ds with
  | nil => rfl
  | cons d ds ih =>
    have h0 : d < 16 := h d (by simp)
    have ih' := ih (fun e he => h e (by simp [he]))
    simp only [hexChars, List.flatMap_cons, List.map_cons] at ih' ⊢
    rw [nibbles_append (by simp), List.map_cons, ih', nat_bitsN, Nat.mod_eq_of_lt (by omega)]

theorem length_flatMap_bitsN (ds : List Nat) : (ds.flatMap (bitsN 4)).length = 4 * ds.length := by
  induction ds with
  | nil => rfl
  | cons d ds ih => simp only [List.flatMap_cons, List.length_append, bitsN_length, ih, List.length_cons]; ring

theorem digitsValue_append (ds : List Nat) (d : Nat) : digitsValue (ds ++ [d]) = 16 * digitsValue ds + d := by
  simp [digitsValue]

/-- The value of digits is the value of their bits. -/
theorem nat_flatMap {ds : List Nat} (h : ∀ d ∈ ds, d < 16) : nat (ds.flatMap (bitsN 4)) = digitsValue ds := by
  induction ds using List.reverseRecOn with
  | nil => rfl
  | append_singleton ds d ih =>
    have h0 : d < 16 := h d (by simp)
    have ih' := ih (fun e he => h e (by simp [he]))
    rw [List.flatMap_append, nat_append, ih', digitsValue_append]
    simp [Nat.mod_eq_of_lt h0]
    ring

theorem digitsValue_lt {ds : List Nat} (h : ∀ d ∈ ds, d < 16) : digitsValue ds < 16 ^ ds.length := by
  have := nat_lt (ds.flatMap (bitsN 4))
  rw [nat_flatMap h, length_flatMap_bitsN, pow_mul] at this
  exact this

/-- Character `j` of a string's hex form is its `j`-th nibble's digit. -/
theorem hexChars_getD {s : BitString} {n : Nat} (h : s.length = 4 * n) {j : Nat} (hj : j < n) (x : HexChar) :
    (hexChars s).getD j x = chr (nat s / 16 ^ (n - 1 - j) % 16) := by
  induction n generalizing s j with
  | zero => omega
  | succ n ih =>
    match s, h with
    | a :: b :: c :: d :: r, h =>
      have hr : r.length = 4 * n := by simp at h; omega
      have e : a :: b :: c :: d :: r = [a, b, c, d] ++ r := rfl
      have hl := nat_lt r
      rw [hr, pow_mul, show 2 ^ 4 = 16 from rfl] at hl
      have hq : nat [a, b, c, d] < 16 := nibble_value_lt rfl
      have hv : nat (a :: b :: c :: d :: r) = nat [a, b, c, d] * 16 ^ n + nat r := by
        rw [e, nat_append, hr, pow_mul, show 2 ^ 4 = 16 from rfl]
      cases j with
      | zero =>
        rw [hv]
        simp only [hexChars, nibbles, List.map_cons, List.getD_cons_zero, Nat.sub_zero, Nat.add_sub_cancel]
        rw [Nat.add_comm, Nat.add_mul_div_right _ _ (by positivity), Nat.div_eq_of_lt hl, Nat.zero_add,
          Nat.mod_eq_of_lt hq]
      | succ j =>
        have hj' : j < n := by omega
        have := ih hr hj'
        simp only [hexChars, nibbles, List.map_cons, List.getD_cons_succ] at this ⊢
        rw [this, hv]
        congr 1
        have e1 : n + 1 - 1 - (j + 1) = n - 1 - j := by omega
        have e2 : 16 ^ n = 16 ^ (n - 1 - j) * (16 * 16 ^ j) := by
          rw [← pow_succ', ← pow_add]; congr 1; omega
        rw [e1, e2]
        rw [show nat [a, b, c, d] * (16 ^ (n - 1 - j) * (16 * 16 ^ j)) + nat r
          = nat r + (16 * (nat [a, b, c, d] * 16 ^ j)) * 16 ^ (n - 1 - j) by ring,
          Nat.add_mul_div_right _ _ (by positivity), Nat.add_mul_mod_self_left]

/-- The digits of a hex form spell the value. -/
theorem hexChars_spells {s : BitString} (h : s.length % 4 = 0) :
    ∃ ds, Spells (hexChars s) ds ∧ ds.length = s.length / 4 ∧ ds.flatMap (bitsN 4) = s := by
  refine ⟨(nibbles s).map nat, ⟨?_, ?_⟩, by simp [nibbles_length], ?_⟩
  · intro d hd
    obtain ⟨q, hq, rfl⟩ := List.mem_map.mp hd
    exact nibble_value_lt (length_of_mem_nibbles hq)
  · simp [hexChars]
  · conv_rhs => rw [← nibbles_flatten h]
    have hall : ∀ q ∈ nibbles s, q.length = 4 := fun q hq => length_of_mem_nibbles hq
    generalize nibbles s = l at hall
    induction l with
    | nil => rfl
    | cons q l ih =>
      simp only [List.map_cons, List.flatMap_cons, List.flatten_cons]
      rw [ih (fun p hp => hall p (by simp [hp])), bitsN_nat_of_length (hall q (by simp))]

namespace Machine

/-! H2B's expansion (R119): either every character is a digit, or there is a leftmost that is not. -/

theorem expandDigits_spells {cs : List HexChar} {ds : List Nat} (h : Spells cs ds) (j : Nat) :
    expandDigits j cs = .ok (ds.flatMap (bitsN 4)) := by
  obtain ⟨hd, rfl⟩ := h
  induction ds generalizing j with
  | nil => rfl
  | cons d ds ih =>
    simp only [List.map_cons, expandDigits, digit_chr (hd d (by simp)), List.flatMap_cons]
    rw [ih (j + 1) (fun e he => hd e (by simp [he]))]

/-- Everything the expansion can answer. -/
theorem expandDigits_cases (j : Nat) (cs : List HexChar) :
    (∃ ds, Spells cs ds ∧ expandDigits j cs = .ok (ds.flatMap (bitsN 4))) ∨
    (∃ k, ∃ h : k < cs.length, digit cs[k] = none ∧ (∀ i, (hi : i < k) → digit cs[i] ≠ none) ∧
      expandDigits j cs = .error (.precondition .badHexDigit (j + k))) := by
  induction cs generalizing j with
  | nil => exact .inl ⟨[], ⟨by simp, rfl⟩, rfl⟩
  | cons c cs ih =>
    cases hc : digit c with
    | none => exact .inr ⟨0, by simp, hc, by intro i hi; omega, by simp [expandDigits, hc]⟩
    | some d =>
      obtain ⟨h16, hchr⟩ := chr_of_digit hc
      rcases ih (j + 1) with ⟨ds, ⟨hds, e⟩, hx⟩ | ⟨k, hk, hn, hl, hx⟩
      · refine .inl ⟨d :: ds, ⟨?_, by simp [hchr, e]⟩, by simp [expandDigits, hc, hx]⟩
        intro x hx'
        rcases List.mem_cons.mp hx' with rfl | hx'
        · exact h16
        · exact hds x hx'
      · refine .inr ⟨k + 1, by simp; omega, by simpa using hn, ?_, ?_⟩
        · intro i hi
          cases i with
          | zero => simp [hc]
          | succ i => simpa using hl i (by omega)
        · simp only [expandDigits, hc, hx]; congr 2; omega

/-- The leftmost bad character decides the error. -/
theorem expandDigits_bad {cs : List HexChar} {k : Nat} (hk : k < cs.length) (hn : digit cs[k] = none)
    (hl : ∀ i, (hi : i < k) → digit cs[i] ≠ none) (j : Nat) :
    expandDigits j cs = .error (.precondition .badHexDigit (j + k)) := by
  rcases expandDigits_cases j cs with ⟨ds, ⟨hd, e⟩, _⟩ | ⟨k', hk', hn', hl', hx⟩
  · subst e
    simp only [List.getElem_map] at hn
    rw [digit_chr (hd _ (by simp))] at hn
    cases hn
  · have : k = k' := by
      rcases Nat.lt_trichotomy k k' with h | h | h
      · exact absurd hn (hl' k h)
      · exact h
      · exact absurd hn' (hl k' h)
    rw [this, hx]

end Machine

end Sys2Proof
end

