-- ==== Sys2Proof/Laws/Prims.lean ====
section
/-! SUPPORT. Laws/Prims.lean: one lemma per outcome of each primitive (40_bit_primitives.md), in closed form. -/

namespace Sys2Proof.Machine

/-! Operands. -/

theorem readBits_str {s : BitString} (h : s.length ≤ 32) : readBits (.str s) = .ok s := by
  simp [readBits, Nat.not_lt.mpr h]

theorem readBits_tooLong {a : BitsOperand} (h : BitsOperandTooLong a) :
    readBits a = .error (.precondition .portWidth 0) := by
  cases a with
  | str s => simp [readBits, h s rfl]
  | overlong n => rfl

theorem readBits_ok {a : BitsOperand} {s : BitString} (h : readBits a = .ok s) :
    a = .str s ∧ s.length ≤ 32 := by
  cases a with
  | overlong n => cases h
  | str s' =>
    simp only [readBits] at h
    split at h
    · cases h
    · cases h; exact ⟨rfl, by simp_all⟩

theorem fieldString_eq_some {w : Nat} {a : BitsOperand} {b : BitString} :
    fieldString w a = some b ↔ a = .str b ∧ b.length = w := by
  cases a with
  | overlong n => simp [fieldString]
  | str s =>
    simp only [fieldString, BitsOperand.str.injEq]
    split
    · next h => constructor
                · rintro h'; cases h'; exact ⟨rfl, h⟩
                · rintro ⟨rfl, -⟩; rfl
    · next h => constructor
                · intro h'; cases h'
                · rintro ⟨rfl, h'⟩; exact absurd h' h

/-! D2B (R115, R116). -/

theorem decimalToBits_portWidth {v : Int} {t : Nat} (h : 32 < t) :
    decimalToBits v t = .error (.precondition .portWidth 0) := by
  simp [decimalToBits, h]

theorem decimalToBits_zeroWidth (v : Int) : decimalToBits v 0 = .error (.precondition .zeroWidth 0) := rfl

theorem decimalToBits_range {v : Int} {t : Nat} (h0 : 0 < t) (h : t ≤ 32) (hv : 2 ^ t ≤ v.natAbs) :
    decimalToBits v t = .error (.range 0) := by
  have hm : t < (minbin v.natAbs).length := by
    by_contra hc
    have := (minbin_length_le h0).mp (Nat.not_lt.mp hc)
    omega
  simp [decimalToBits, Nat.not_lt.mpr h, Nat.pos_iff_ne_zero.mp h0, hm]

/-- D2B's closed form (R116): the accepted set is `|v| < 2^t`, and the result is `v` modulo `2^t`. -/
theorem decimalToBits_ok {v : Int} {t : Nat} (h0 : 0 < t) (h : t ≤ 32) (hv : v.natAbs < 2 ^ t) :
    ∃ b, decimalToBits v t = .ok b ∧ b.length = t ∧ (nat b : Int) = v % 2 ^ t := by
  have hm : (minbin v.natAbs).length ≤ t := (minbin_length_le h0).mpr hv
  have hz : (zext t (minbin v.natAbs)).length = t := zext_length hm
  have hc : ((2 ^ t : Nat) : Int) = 2 ^ t := by push_cast; rfl
  by_cases hneg : v < 0
  · refine ⟨twosBits (zext t (minbin v.natAbs)), ?_, by simp [hz], ?_⟩
    · simp [decimalToBits, Nat.not_lt.mpr h, Nat.pos_iff_ne_zero.mp h0, Nat.not_lt.mpr hm, hneg]
    · rw [nat_twosBits, hz, nat_zext, nat_minbin, Nat.mod_eq_of_lt (by omega)]
      rw [← Int.add_emod_right (a := v) (b := 2 ^ t), ← hc]
      rw [Int.emod_eq_of_lt (by omega) (by omega)]
      omega
  · refine ⟨zext t (minbin v.natAbs), ?_, hz, ?_⟩
    · simp [decimalToBits, Nat.not_lt.mpr h, Nat.pos_iff_ne_zero.mp h0, Nat.not_lt.mpr hm, hneg]
    · rw [nat_zext, nat_minbin, ← hc, Int.emod_eq_of_lt (by omega) (by omega)]
      omega

/-- What it means that D2B succeeds. -/
theorem decimalToBits_eq_ok {v : Int} {t : Nat} {b : BitString} (h : decimalToBits v t = .ok b) :
    0 < t ∧ t ≤ 32 ∧ v.natAbs < 2 ^ t ∧ b.length = t ∧ (nat b : Int) = v % 2 ^ t := by
  by_cases h32 : 32 < t
  · rw [decimalToBits_portWidth h32] at h; cases h
  rcases Nat.eq_zero_or_pos t with rfl | h0
  · cases h
  by_cases hv : v.natAbs < 2 ^ t
  · obtain ⟨b', hb, hl, hn⟩ := decimalToBits_ok h0 (Nat.not_lt.mp h32) hv
    rw [hb] at h; cases h
    exact ⟨h0, Nat.not_lt.mp h32, hv, hl, hn⟩
  · rw [decimalToBits_range h0 (Nat.not_lt.mp h32) (Nat.not_lt.mp hv)] at h; cases h

/-! B2D (R117, R118). -/

theorem bitsToDecimal_ok {s : BitString} (h0 : 0 < s.length) (h : s.length ≤ 32) (m : Mode) :
    bitsToDecimal (.str s) m = .ok (valueOf s m) := by
  simp [bitsToDecimal, readBits_str h, Nat.pos_iff_ne_zero.mp h0]

theorem valueOf_eq_valueInMode {s : BitString} (h0 : 0 < s.length) (m : Mode) :
    valueOf s m = valueInMode s.length (nat s) m := by
  cases m with
  | unsigned => rfl
  | signed => rw [valueOf_signed h0]; simp [valueInMode]

/-! B2H and H2B (R119, R120). -/

theorem bitsToHex_ok {s : BitString} (h : s.length ≤ 32) (h4 : s.length % 4 = 0) :
    bitsToHex (.str s) = .ok (hexChars s) := by
  simp [bitsToHex, readBits_str h, h4]

theorem hexToBits_ok {cs : List HexChar} {ds : List Nat} (hs : Spells cs ds) (h : ds.length ≤ 8) :
    hexToBits (.str cs) = .ok (ds.flatMap (bitsN 4)) := by
  have hl : cs.length = ds.length := by rw [hs.2, List.length_map]
  simp only [hexToBits, hl, Config.WMAX]
  rw [if_neg (by omega)]
  exact expandDigits_spells hs 0

theorem hexToBits_tooLong {h : HexOperand} (hh : HexOperandTooLong h) :
    hexToBits h = .error (.precondition .portWidth 0) := by
  cases h with
  | str cs => have := hh cs rfl; simp only [hexToBits, Config.WMAX]; rw [if_pos (by omega)]
  | overlong n => rfl

theorem hexToBits_bad {cs : List HexChar} (h8 : cs.length ≤ 8) {k : Nat} (hk : k < cs.length)
    (hn : digit cs[k] = none) (hl : ∀ i, (hi : i < k) → digit cs[i] ≠ none) :
    hexToBits (.str cs) = .error (.precondition .badHexDigit k) := by
  simp only [hexToBits, Config.WMAX]
  rw [if_neg (by omega), expandDigits_bad hk hn hl 0, Nat.zero_add]

/-! Output ports (R81, R83, R84). -/

theorem carries_ofString {s : BitString} (h : s.length ≤ 32) :
    Carries (BitsPort.ofString s) s.length (nat s) := by
  have hl := nat_lt s
  have hp : 2 ^ s.length ≤ 2 ^ 32 := Nat.pow_le_pow_right (by norm_num) h
  refine ⟨?_, ?_⟩
  · simp only [BitsPort.ofString, BitVec.toNat_ofNat]; omega
  · simp only [BitsPort.ofString, BitVec.toNat_ofNat]; exact Nat.mod_eq_of_lt (by omega)

theorem toInt_ofInt {v : Int} (h1 : -(2 ^ 32) ≤ v) (h2 : v < 2 ^ 32) : (IntPort.ofInt v).toInt = v := by
  simp only [IntPort.ofInt, BitVec.toInt_ofInt]
  rw [Int.bmod_eq_of_le] <;> omega

theorem carriesHex_ofString {cs : List HexChar} (h : cs.length ≤ 8) {d : Nat → Nat}
    (hd : ∀ j, j < cs.length → cs.getD j 0 = chr (d j)) :
    CarriesHex (HexPort.ofString cs) cs.length d := by
  have key : ∀ j, j < 8 → cs.getD j 0 = if j < cs.length then chr (d j) else 0 := by
    intro j _
    split
    · next hj => exact hd j hj
    · next hj => rw [List.getD_eq_default _ _ (by omega)]
  refine ⟨?_, ?_⟩
  · simp only [HexPort.ofString, BitVec.toNat_ofNat]; omega
  · intro j hj
    rw [← key j hj]
    simp only [HexPort.ofString]
    interval_cases j <;> rfl

end Sys2Proof.Machine
end

