-- ==== Sys2Proof/Laws/State.lean ====
section
/-! SUPPORT. Laws/State.lean: one lemma per field per update of the state, true by rfl, so that no proof unfolds a record
update. -/

namespace Sys2Proof.Machine

variable (s : State) (v : IV) (r : Response) (e : CmdError) (b : Bool) (n : Nat) (q : Request) (st : Status)

@[simp] theorem State.finish_iv : (s.finish v r).iv = v := rfl
@[simp] theorem State.finish_resp : (s.finish v r).resp = some r := rfl
@[simp] theorem State.finish_inputs : (s.finish v r).inputs = s.inputs := rfl
@[simp] theorem State.finish_free : (s.finish v r).free = s.free + 1 := rfl

@[simp] theorem State.takeError_keep_iv : (s.takeError e false).iv = s.iv := rfl
@[simp] theorem State.takeError_invalid_iv :
    (s.takeError e true).iv = IV.undefinedBut .invalid s.free := rfl
@[simp] theorem State.takeError_resp : (s.takeError e b).resp = some (Response.error e s.free) := rfl
@[simp] theorem State.takeError_inputs : (s.takeError e b).inputs = s.inputs := rfl
@[simp] theorem State.takeError_free : (s.takeError e b).free = s.free + 1 := rfl

@[simp] theorem State.takeReset_iv : s.takeReset.iv = IV.undefinedBut .empty s.free := rfl
@[simp] theorem State.takeReset_resp : s.takeReset.resp = none := rfl
@[simp] theorem State.takeReset_inputs : s.takeReset.inputs = s.inputs := rfl
@[simp] theorem State.takeReset_free : s.takeReset.free = s.free + 1 := rfl

@[simp] theorem State.idle_iv : s.idle.iv = s.iv := rfl
@[simp] theorem State.idle_resp : s.idle.resp = none := rfl
@[simp] theorem State.idle_inputs : s.idle.inputs = s.inputs := rfl
@[simp] theorem State.idle_free : s.idle.free = s.free := rfl

@[simp] theorem State.consume_iv : s.consume.iv = s.iv := rfl
@[simp] theorem State.consume_resp : s.consume.resp = s.resp := rfl
@[simp] theorem State.consume_inputs : s.consume.inputs = s.inputs.tail := rfl
@[simp] theorem State.consume_free : s.consume.free = s.free := rfl

@[simp] theorem State.present_iv : (s.present q).iv = s.iv := rfl
@[simp] theorem State.present_inputs : (s.present q).inputs = ⟨false, [q]⟩ :: s.inputs := rfl
@[simp] theorem State.consume_present : (s.present q).consume = s := rfl
@[simp] theorem State.presented_present : (s.present q).presented = .command (decode q) := rfl

@[simp] theorem IV.undefinedBut_status : (IV.undefinedBut st n).status = st := rfl

@[simp] theorem IV.compose_status : v.compose.status = .composed := rfl
@[simp] theorem IV.compose_fmt : v.compose.fmt = v.fmt := rfl
@[simp] theorem IV.compose_src : v.compose.src = v.src := rfl
@[simp] theorem IV.compose_mode : v.compose.mode = v.mode := rfl
@[simp] theorem IV.compose_dec : v.compose.dec = v.dec := rfl
@[simp] theorem IV.compose_fb : v.compose.fb = v.fb := rfl
@[simp] theorem IV.compose_word : v.compose.word = wordOf v.liveFb.flatten := rfl
@[simp] theorem IV.compose_decAt (k : Nat) : v.compose.decAt k = v.decAt k := rfl
@[simp] theorem IV.compose_fbAt (k : Nat) : v.compose.fbAt k = v.fbAt k := rfl
@[simp] theorem IV.compose_liveFb : v.compose.liveFb = v.liveFb := rfl

@[simp] theorem Response.ok_err : (Response.ok n).err = 0 := rfl
@[simp] theorem Response.ok_sub : (Response.ok n).sub = 0 := rfl
@[simp] theorem Response.ok_info : (Response.ok n).info = 0 := rfl
@[simp] theorem Response.error_err : (Response.error e n).err = e.err := rfl
@[simp] theorem Response.error_sub : (Response.error e n).sub = e.sub := rfl
@[simp] theorem Response.error_info : (Response.error e n).info = e.info := rfl

end Sys2Proof.Machine
end

