-- ==== Sys2Proof/Laws/Codec.lean ====
section
/-! SUPPORT. Laws/Codec.lean: the layouts, the slots of the register, and what the field loops of FILLD, FILLB and DECODE
answer (30_encoding.md rules R70 to R76, 41_format_codec.md rules R150, R154, R162). -/

namespace Sys2Proof

/-! Layouts. -/

theorem Fmt.width_pos {F : Fmt} {k : Nat} (h : k < F.nfields) : 5 ≤ F.width k ∧ F.width k ≤ 26 := by
  revert k; cases F <;> decide

theorem Fmt.width_le_slot {F : Fmt} {k : Nat} (h : k < F.nfields) : F.width k ≤ slotWidth k := by
  revert k; cases F <;> decide

theorem Fmt.offset_add_width {F : Fmt} {k : Nat} (h : k < F.nfields) : F.offset k + F.width k ≤ 32 := by
  revert k; cases F <;> decide

theorem Fmt.nfields_le (F : Fmt) : F.nfields ≤ 6 := by cases F <;> decide

/-- The signed-capable fields of R76, index by index. -/
theorem Fmt.signedField_eq_some {F : Fmt} {k : Nat} : F.signedField = some k ↔ F = .R ∧ k = 4 ∨ F = .I ∧ k = 3 := by
  cases F <;> simp [Fmt.signedField, eq_comm]

/-- The mode a field is read in (R76), index by index. -/
theorem Fmt.fieldMode_eq (F : Fmt) (m : Mode) (k : Nat) :
    F.fieldMode m k = if F = .R ∧ k = 4 ∨ F = .I ∧ k = 3 then m else .unsigned := by
  simp only [Fmt.fieldMode, Fmt.signedField_eq_some]

@[simp] theorem Fmt.widths_length (F : Fmt) : F.widths.length = F.nfields := by cases F <;> rfl

theorem Fmt.widths_sum (F : Fmt) : F.widths.sum = 32 := by cases F <;> rfl

theorem slotWidth_le (k : Nat) : slotWidth k ≤ 26 := by
  by_cases h : k < 6
  · interval_cases k <;> decide
  · simp only [slotWidth]; rw [List.getD_eq_default _ _ (by simp; omega)]; omega

@[simp] theorem Fmt.slices_length (F : Fmt) (u : BitString) : (F.slices u).length = F.nfields := by simp [Fmt.slices]

theorem Fmt.slices_getD {F : Fmt} {k : Nat} (h : k < F.nfields) (u : BitString) :
    (F.slices u).getD k [] = F.slice k u := by
  rw [List.getD_eq_getElem _ _ (by simpa using h)]
  simp [Fmt.slices]

theorem Fmt.slice_length {F : Fmt} {k : Nat} (h : k < F.nfields) {u : BitString} (hu : u.length = 32) :
    (F.slice k u).length = F.width k := by
  have := Fmt.offset_add_width h
  simp [Fmt.slice, hu]; omega

/-- The fields fill the word with no gap (R70): the slices of a word string, joined, are the string. -/
theorem Fmt.slices_flatten (F : Fmt) {u : BitString} (hu : u.length = 32) : (F.slices u).flatten = u := by
  match u, hu with
  | [_, _, _, _, _, _, _, _, _, _, _, _, _, _, _, _, _, _, _, _, _, _, _, _, _, _, _, _, _, _, _, _], _ =>
    cases F <;> rfl

theorem nat_take_drop (u : BitString) {o w : Nat} (h : o + w ≤ u.length) :
    nat ((u.drop o).take w) = nat u / 2 ^ (u.length - o - w) % 2 ^ w := by
  have hl : ((u.drop o).take w).length = w := by simp; omega
  have h1 := nat_lt ((u.drop o).take w)
  have h2 := nat_lt ((u.drop o).drop w)
  have hr : ((u.drop o).drop w).length = u.length - o - w := by simp; omega
  rw [hl] at h1
  rw [hr] at h2
  have e : nat u = nat (u.take o) * 2 ^ (u.length - o)
      + (nat ((u.drop o).take w) * 2 ^ (u.length - o - w) + nat ((u.drop o).drop w)) := by
    conv_lhs => rw [← List.take_append_drop o u, nat_append, ← List.take_append_drop w (u.drop o), nat_append]
    simp only [List.length_append, hl, hr]
    congr 3; omega
  have e2 : 2 ^ (u.length - o) = 2 ^ w * 2 ^ (u.length - o - w) := by rw [← pow_add]; congr 1; omega
  rw [e, e2]
  rw [show nat (u.take o) * (2 ^ w * 2 ^ (u.length - o - w))
      + (nat ((u.drop o).take w) * 2 ^ (u.length - o - w) + nat ((u.drop o).drop w))
    = nat ((u.drop o).drop w) + (nat ((u.drop o).take w) + 2 ^ w * nat (u.take o)) * 2 ^ (u.length - o - w) by ring]
  rw [Nat.add_mul_div_right _ _ (by positivity), Nat.div_eq_of_lt h2, Nat.zero_add, Nat.add_mul_mod_self_left,
    Nat.mod_eq_of_lt h1]

/-- The value of a field of a word (R75). -/
theorem Fmt.nat_slice {F : Fmt} {k : Nat} (h : k < F.nfields) {u : BitString} (hu : u.length = 32) :
    nat (F.slice k u) = nat u / 2 ^ (32 - F.offset k - F.width k) % 2 ^ F.width k := by
  have := Fmt.offset_add_width h
  rw [Fmt.slice, nat_take_drop u (by omega), hu]

namespace Machine

/-! Slots. -/

theorem decSlots_getD (n : Nat) (ds : List Int) {k : Nat} (hk : k < 6) :
    (decSlots n ds).toList.getD k 0 = ds.getD k (Config.freeDec n k).toInt := by
  interval_cases k <;> rfl

theorem fbSlots_getD (n : Nat) (bs : List BitString) {k : Nat} (hk : k < 6) :
    (fbSlots n bs).toList.getD k [] = bs.getD k ((Config.freeFb n k).take (slotWidth k)) := by
  interval_cases k <;> rfl

theorem getD_of_lt {α : Type} {l : List α} {k : Nat} (h : k < l.length) (x y : α) : l.getD k x = l.getD k y := by
  rw [List.getD_eq_getElem _ _ h, List.getD_eq_getElem _ _ h]

theorem decSlots_live (n : Nat) {ds : List Int} {k : Nat} (h : k < ds.length) (hk : k < 6) :
    (decSlots n ds).toList.getD k 0 = ds.getD k 0 := by
  rw [decSlots_getD n ds hk]; exact getD_of_lt h _ _

theorem fbSlots_live (n : Nat) {bs : List BitString} {k : Nat} (h : k < bs.length) (hk : k < 6) :
    (fbSlots n bs).toList.getD k [] = bs.getD k [] := by
  rw [fbSlots_getD n bs hk]; exact getD_of_lt h _ _

/-- The live fields of slots filled with `nfields` strings are those strings. -/
theorem fbSlots_take (n : Nat) {bs : List BitString} {F : Fmt} (h : bs.length = F.nfields) :
    (fbSlots n bs).toList.take F.nfields = bs := by
  cases F with
  | R => match bs, h with | [_, _, _, _, _, _], _ => rfl
  | I => match bs, h with | [_, _, _, _], _ => rfl
  | J => match bs, h with | [_, _], _ => rfl

/-! The field loops. -/

/-- FILLD's loop: every field in range, or a first field that is not (R150). -/
theorem encodeFields_cases {ws : List Nat} {ds : List Int} (hl : ds.length = ws.length)
    (hw : ∀ w ∈ ws, 0 < w ∧ w ≤ 32) (k : Nat) :
    (∃ bs, encodeFields k ws ds = .ok bs ∧ bs.length = ws.length ∧
      ∀ i, i < ws.length → decimalToBits (ds.getD i 0) (ws.getD i 0) = .ok (bs.getD i [])) ∨
    (∃ i, i < ws.length ∧ 2 ^ ws.getD i 0 ≤ (ds.getD i 0).natAbs ∧
      (∀ j, j < i → (ds.getD j 0).natAbs < 2 ^ ws.getD j 0) ∧ encodeFields k ws ds = .error (.range (k + i))) := by
  induction ws generalizing ds k with
  | nil =>
    match ds, hl with
    | [], _ => exact .inl ⟨[], rfl, rfl, by simp⟩
  | cons w ws ih =>
    match ds, hl with
    | d :: ds, hl =>
      obtain ⟨h0, h32⟩ := hw w (by simp)
      by_cases hd : d.natAbs < 2 ^ w
      · obtain ⟨b, hb, -, -⟩ := decimalToBits_ok h0 h32 hd
        rcases ih (ds := ds) (by simpa using hl) (fun x hx => hw x (by simp [hx])) (k + 1) with
          ⟨bs, he, hlen, hall⟩ | ⟨i, hi, hbig, hsm, he⟩
        · refine .inl ⟨b :: bs, by simp [encodeFields, hb, he], by simp [hlen], ?_⟩
          intro i hi
          cases i with
          | zero => simpa using hb
          | succ i => simpa using hall i (by simpa using hi)
        · refine .inr ⟨i + 1, by simpa using hi, by simpa using hbig, ?_, ?_⟩
          · intro j hj
            cases j with
            | zero => simpa using hd
            | succ j => simpa using hsm j (by omega)
          · simp only [encodeFields, hb, he]; congr 2; omega
      · refine .inr ⟨0, by simp, by simpa using hd, by intro j hj; omega, ?_⟩
        simp [encodeFields, decimalToBits_range h0 h32 (Nat.not_lt.mp hd), CmdError.atField]

/-- FILLB's loop: every field of its width, or a first field that is not (R154). -/
theorem checkFields_cases {ws : List Nat} {as : List BitsOperand} (hl : as.length = ws.length) (k : Nat) :
    (∃ bs, checkFields k ws as = .ok bs ∧ as = bs.map .str ∧ bs.length = ws.length ∧
      ∀ i, i < ws.length → (bs.getD i []).length = ws.getD i 0) ∨
    (∃ i, i < ws.length ∧ (∀ b, as.getD i (.overlong 0) = .str b → b.length ≠ ws.getD i 0) ∧
      (∀ j, j < i → ∃ b, as.getD j (.overlong 0) = .str b ∧ b.length = ws.getD j 0) ∧
      checkFields k ws as = .error (.precondition .fieldWidth (k + i))) := by
  induction ws generalizing as k with
  | nil =>
    match as, hl with
    | [], _ => exact .inl ⟨[], rfl, rfl, rfl, by simp⟩
  | cons w ws ih =>
    match as, hl with
    | a :: as, hl =>
      cases ha : fieldString w a with
      | none =>
        refine .inr ⟨0, by simp, ?_, by intro j hj; omega, by simp [checkFields, ha]⟩
        intro b hb hlen
        have := fieldString_eq_some.mpr ⟨by simpa using hb, by simpa using hlen⟩
        rw [ha] at this
        cases this
      | some b =>
        obtain ⟨rfl, hb⟩ := fieldString_eq_some.mp ha
        rcases ih (as := as) (by simpa using hl) (k + 1) with ⟨bs, he, rfl, hlen, hall⟩ | ⟨i, hi, hbad, hgood, he⟩
        · refine .inl ⟨b :: bs, by simp [checkFields, ha, he], by simp, by simp [hlen], ?_⟩
          intro i hi
          cases i with
          | zero => simpa using hb
          | succ i => simpa using hall i (by simpa using hi)
        · refine .inr ⟨i + 1, by simpa using hi, by simpa using hbad, ?_, ?_⟩
          · intro j hj
            cases j with
            | zero => exact ⟨b, by simp, by simpa using hb⟩
            | succ j => simpa using hgood j (by omega)
          · simp only [checkFields, ha, he]; congr 2; omega

theorem fieldValues_length (F : Fmt) (m : Mode) (k : Nat) (bs : List BitString) :
    (fieldValues F m k bs).length = bs.length := by
  induction bs generalizing k with
  | nil => rfl
  | cons b bs ih => simp [fieldValues, ih]

theorem fieldValues_getD (F : Fmt) (m : Mode) (k : Nat) {bs : List BitString} {i : Nat} (h : i < bs.length) :
    (fieldValues F m k bs).getD i 0 = valueOf (bs.getD i []) (F.fieldMode m (k + i)) := by
  induction bs generalizing k i with
  | nil => simp at h
  | cons b bs ih =>
    cases i with
    | zero => rfl
    | succ i =>
      simp only [fieldValues, List.getD_cons_succ]
      rw [ih (k + 1) (by simpa using h)]
      congr 2; omega

/-! DECODE's word (R162). -/

/-- Everything the reading of a hex word can answer. -/
theorem wordString_cases (h : HexOperand) :
    (∃ cs ds, h = .str cs ∧ Spells cs ds ∧ ds.length = 8 ∧ wordString h = .ok (ds.flatMap (bitsN 4))) ∨
    ((∀ cs, h = .str cs → cs.length ≠ 8) ∧ wordString h = .error (.precondition .wordLength 0)) ∨
    (∃ cs k, h = .str cs ∧ cs.length = 8 ∧ ∃ hk : k < cs.length, digit cs[k] = none ∧
      (∀ i, (hi : i < k) → digit cs[i] ≠ none) ∧ wordString h = .error (.precondition .badHexDigit k)) := by
  cases h with
  | overlong n => exact .inr (.inl ⟨fun cs hc => (by cases hc), rfl⟩)
  | str cs =>
    by_cases h8 : cs.length = 8
    · have e : wordString (.str cs) = expandDigits 0 cs := by
        simp [wordString, hexToBits, h8]
      rcases expandDigits_cases 0 cs with ⟨ds, hs, hx⟩ | ⟨k, hk, hn, hl, hx⟩
      · have : ds.length = 8 := by rw [← h8, hs.2, List.length_map]
        exact .inl ⟨cs, ds, rfl, hs, this, by rw [e, hx]⟩
      · exact .inr (.inr ⟨cs, k, rfl, h8, hk, hn, hl, by rw [e, hx, Nat.zero_add]⟩)
    · refine .inr (.inl ⟨?_, by simp [wordString, h8]⟩)
      intro cs' hc
      cases hc
      exact h8

end Machine

end Sys2Proof
end

