-- ==== Sys2Proof/Laws/Encoding.lean ====
section
/-! SUPPORT. Laws/Encoding.lean: what is put on a port is what is read from it, and a request laid out as one number is
read back field by field (30_encoding.md rules R79 to R84). -/

namespace Sys2Proof

open Machine

theorem bitsOperand_port {a : BitsOperand} (h : a.wf = true) : a.port.operand = a := by
  cases a with
  | str s =>
    simp only [BitsOperand.wf, decide_eq_true_eq] at h
    obtain ⟨h1, h2⟩ := carries_ofString h
    show (BitsPort.ofString s).operand = _
    unfold BitsPort.operand
    simp only [h1, h2, Config.WMAX, if_pos h, bitsN_nat]
  | overlong n =>
    simp only [BitsOperand.wf, decide_eq_true_eq] at h
    simp only [BitsOperand.port, BitsPort.operand, BitVec.toNat_ofNat, Config.WMAX]
    rw [Nat.mod_eq_of_lt (by omega), if_neg (by omega)]

theorem take_slots {cs : List HexChar} (h : cs.length ≤ 8) : (HexPort.ofString cs).ch.toList.take cs.length = cs := by
  match cs, h with
  | [], _ => rfl
  | [_], _ => rfl
  | [_, _], _ => rfl
  | [_, _, _], _ => rfl
  | [_, _, _, _], _ => rfl
  | [_, _, _, _, _], _ => rfl
  | [_, _, _, _, _, _], _ => rfl
  | [_, _, _, _, _, _, _], _ => rfl
  | [_, _, _, _, _, _, _, _], _ => rfl
  | _ :: _ :: _ :: _ :: _ :: _ :: _ :: _ :: _ :: r, h => exact absurd h (by simp only [List.length_cons]; omega)

theorem hexPort_operand_ofString {cs : List HexChar} (h : cs.length ≤ 8) : (HexPort.ofString cs).operand = .str cs := by
  have e : (HexPort.ofString cs).len.toNat = cs.length := by
    simp only [HexPort.ofString, BitVec.toNat_ofNat]; omega
  unfold HexPort.operand
  simp only [e, Config.HEX_DIGITS, if_pos h, take_slots h]

theorem hexOperand_port {a : HexOperand} (h : a.wf = true) : a.port.operand = a := by
  cases a with
  | str cs => exact hexPort_operand_ofString (by simpa [HexOperand.wf] using h)
  | overlong n =>
    simp only [HexOperand.wf, decide_eq_true_eq] at h
    simp only [HexOperand.port, HexPort.operand, BitVec.toNat_ofNat, Config.HEX_DIGITS]
    rw [Nat.mod_eq_of_lt (by omega), if_neg (by omega)]

theorem int_port {v : Int} (h : intWf v = true) : (IntPort.ofInt v).toInt = v := by
  simp only [intWf, decide_eq_true_eq] at h
  exact toInt_ofInt h.1 h.2

theorem len_port {t : Nat} (h : lenWf t = true) : t % 64 = t := by
  simp only [lenWf, decide_eq_true_eq] at h
  omega

@[simp] theorem mode_ofBit_bit (m : Mode) : Mode.ofBit m.bit = m := by cases m <;> rfl

@[simp] theorem ext_ofBit_bit (x : ExtKind) : ExtKind.ofBit x.bit = x := by cases x <;> rfl

/-- The first field of what stands from bit `lo` up is read there, and the rest stands above it. -/
theorem bitField_packFields {n lo w : Nat} (x : BitVec w) (rest : List (Nat × Nat))
    (h : n >>> lo = packFields ((w, x.toNat) :: rest)) :
    bitField n lo w = x ∧ n >>> (lo + w) = packFields rest := by
  refine ⟨?_, ?_⟩
  · unfold bitField
    rw [h]
    apply BitVec.eq_of_toNat_eq
    simp [packFields, Nat.mod_eq_of_lt x.isLt]
  · rw [Nat.shiftRight_add, h, packFields, Nat.shiftRight_eq_div_pow, Nat.add_mul_div_left _ _ (by positivity),
      Nat.div_eq_of_lt x.isLt, Nat.zero_add]

/-- A bit-string port is read where its fields stand. -/
theorem bitsPortAt_packFields {n lo : Nat} (p : BitsPort) (rest : List (Nat × Nat))
    (h : n >>> lo = packFields (p.fields ++ rest)) :
    bitsPortAt n lo = p ∧ n >>> (lo + 38) = packFields rest := by
  simp only [BitsPort.fields, List.cons_append, List.nil_append] at h
  obtain ⟨e1, h1⟩ := bitField_packFields p.len _ h
  obtain ⟨e2, h2⟩ := bitField_packFields p.data _ h1
  exact ⟨by simp [bitsPortAt, e1, e2], by simpa [Nat.add_assoc] using h2⟩

theorem vector_eight {α : Type} (v : Vector α 8) : #v[v[0], v[1], v[2], v[3], v[4], v[5], v[6], v[7]] = v := by
  apply Vector.ext
  intro i hi
  interval_cases i <;> rfl

theorem vector_six {α : Type} (v : Vector α 6) : #v[v[0], v[1], v[2], v[3], v[4], v[5]] = v := by
  apply Vector.ext
  intro i hi
  interval_cases i <;> rfl

/-- A hex port is read where its fields stand. -/
theorem hexPortAt_packFields {n lo : Nat} (p : HexPort) (rest : List (Nat × Nat))
    (h : n >>> lo = packFields (p.fields ++ rest)) :
    hexPortAt n lo = p ∧ n >>> (lo + 68) = packFields rest := by
  have hf : p.fields = [(4, p.len.toNat), (8, p.ch[0].toNat), (8, p.ch[1].toNat), (8, p.ch[2].toNat),
      (8, p.ch[3].toNat), (8, p.ch[4].toNat), (8, p.ch[5].toNat), (8, p.ch[6].toNat), (8, p.ch[7].toNat)] := by
    have : p.ch.toList = [p.ch[0], p.ch[1], p.ch[2], p.ch[3], p.ch[4], p.ch[5], p.ch[6], p.ch[7]] := by
      conv_lhs => rw [← vector_eight p.ch]
      rfl
    simp only [HexPort.fields, this, List.map_cons, List.map_nil]
  simp only [hf, List.cons_append, List.nil_append] at h
  obtain ⟨e, h⟩ := bitField_packFields p.len _ h
  obtain ⟨e0, h⟩ := bitField_packFields p.ch[0] _ h
  obtain ⟨e1, h⟩ := bitField_packFields p.ch[1] _ h
  obtain ⟨e2, h⟩ := bitField_packFields p.ch[2] _ h
  obtain ⟨e3, h⟩ := bitField_packFields p.ch[3] _ h
  obtain ⟨e4, h⟩ := bitField_packFields p.ch[4] _ h
  obtain ⟨e5, h⟩ := bitField_packFields p.ch[5] _ h
  obtain ⟨e6, h⟩ := bitField_packFields p.ch[6] _ h
  obtain ⟨e7, h⟩ := bitField_packFields p.ch[7] _ h
  simp only [Nat.add_assoc, Nat.reduceAdd] at e0 e1 e2 e3 e4 e5 e6 e7 h
  exact ⟨by simp only [hexPortAt, e, e0, e1, e2, e3, e4, e5, e6, e7, vector_eight], h⟩

/-- A request laid out as a number is read back whole, and nothing stands above it. -/
theorem Request.ofNat_toNat (r : Request) : Request.ofNat r.toNat = r ∧ r.toNat >>> requestWidth = 0 := by
  have hd : r.fd.toList = [r.fd[0], r.fd[1], r.fd[2], r.fd[3], r.fd[4], r.fd[5]] := by
    conv_lhs => rw [← vector_six r.fd]
    rfl
  have hb : r.fbits.toList = [r.fbits[0], r.fbits[1], r.fbits[2], r.fbits[3], r.fbits[4], r.fbits[5]] := by
    conv_lhs => rw [← vector_six r.fbits]
    rfl
  have k : r.toNat >>> 0 = packFields ((5, r.cmd.toNat) :: (1, r.mode.toNat) :: (r.a.fields ++ ((6, r.t.toNat) ::
      (33, r.v.toNat) :: (r.h.fields ++ ((33, r.fd[0].toNat) :: (33, r.fd[1].toNat) :: (33, r.fd[2].toNat) ::
        (33, r.fd[3].toNat) :: (33, r.fd[4].toNat) :: (33, r.fd[5].toNat) :: (r.fbits[0].fields ++
          (r.fbits[1].fields ++ (r.fbits[2].fields ++ (r.fbits[3].fields ++ (r.fbits[4].fields ++
            (r.fbits[5].fields ++ []))))))))))) := by
    rw [Nat.shiftRight_zero]
    unfold Request.toNat Request.fields
    rw [hd, hb]
    simp only [List.map_cons, List.map_nil, List.flatMap_cons, List.flatMap_nil, List.cons_append, List.nil_append,
      List.append_assoc]
  generalize r.toNat = n at k ⊢
  obtain ⟨e0, k⟩ := bitField_packFields r.cmd _ k
  obtain ⟨e1, k⟩ := bitField_packFields r.mode _ k
  obtain ⟨e2, k⟩ := bitsPortAt_packFields r.a _ k
  obtain ⟨e3, k⟩ := bitField_packFields r.t _ k
  obtain ⟨e4, k⟩ := bitField_packFields r.v _ k
  obtain ⟨e5, k⟩ := hexPortAt_packFields r.h _ k
  obtain ⟨f0, k⟩ := bitField_packFields r.fd[0] _ k
  obtain ⟨f1, k⟩ := bitField_packFields r.fd[1] _ k
  obtain ⟨f2, k⟩ := bitField_packFields r.fd[2] _ k
  obtain ⟨f3, k⟩ := bitField_packFields r.fd[3] _ k
  obtain ⟨f4, k⟩ := bitField_packFields r.fd[4] _ k
  obtain ⟨f5, k⟩ := bitField_packFields r.fd[5] _ k
  obtain ⟨g0, k⟩ := bitsPortAt_packFields r.fbits[0] _ k
  obtain ⟨g1, k⟩ := bitsPortAt_packFields r.fbits[1] _ k
  obtain ⟨g2, k⟩ := bitsPortAt_packFields r.fbits[2] _ k
  obtain ⟨g3, k⟩ := bitsPortAt_packFields r.fbits[3] _ k
  obtain ⟨g4, k⟩ := bitsPortAt_packFields r.fbits[4] _ k
  obtain ⟨g5, k⟩ := bitsPortAt_packFields r.fbits[5] _ k
  simp only [Nat.reduceAdd] at e0 e1 e2 e3 e4 e5 f0 f1 f2 f3 f4 f5 g0 g1 g2 g3 g4 g5 k
  refine ⟨?_, k⟩
  simp only [Request.ofNat, e0, e1, e2, e3, e4, e5, f0, f1, f2, f3, f4, f5, g0, g1, g2, g3, g4, g5, vector_six]

end Sys2Proof
end

