-- ==== Sys2Proof/Laws/Exec.lean ====
section
/-! SUPPORT. Laws/Exec.lean: what each shared operation answers, and the one inversion of exec: every command ends in a
finished state, either with a success or with the shared error response. -/

namespace Sys2Proof.Machine

/-! The answers of the primitives. -/

@[simp] theorem answerBits_ok (s : State) (b : BitString) :
    s.answerBits (.ok b) = .next (s.finish s.iv { Response.ok s.free with rb := BitsPort.ofString b }) := rfl
@[simp] theorem answerBits_error (s : State) (e : CmdError) :
    s.answerBits (.error e) = .next (s.takeError e false) := rfl
@[simp] theorem answerInt_ok (s : State) (v : Int) :
    s.answerInt (.ok v) = .next (s.finish s.iv { Response.ok s.free with ri := IntPort.ofInt v }) := rfl
@[simp] theorem answerInt_error (s : State) (e : CmdError) :
    s.answerInt (.error e) = .next (s.takeError e false) := rfl
@[simp] theorem answerHex_ok (s : State) (cs : List HexChar) :
    s.answerHex (.ok cs) = .next (s.finish s.iv { Response.ok s.free with rh := HexPort.ofString cs }) := rfl
@[simp] theorem answerHex_error (s : State) (e : CmdError) :
    s.answerHex (.error e) = .next (s.takeError e false) := rfl

/-! What a requester sees of each answer: `P` is what is to be said of the result port. -/

theorem answersBits_ok (s : State) {x : Except CmdError BitString} {b : BitString} (h : x = .ok b)
    (P : BitsPort → Prop) (hp : P (BitsPort.ofString b)) :
    ∃ t r, s.answerBits x = .next t ∧ t.resp = some r ∧ r.Success ∧ P r.rb ∧ t.iv = s.iv :=
  ⟨s.finish s.iv { Response.ok s.free with rb := BitsPort.ofString b }, _, by rw [h]; rfl, rfl, ⟨rfl, rfl, rfl⟩, hp, rfl⟩

theorem answersInt_ok (s : State) {x : Except CmdError Int} {v : Int} (h : x = .ok v)
    (P : IntPort → Prop) (hp : P (IntPort.ofInt v)) :
    ∃ t r, s.answerInt x = .next t ∧ t.resp = some r ∧ r.Success ∧ P r.ri ∧ t.iv = s.iv :=
  ⟨s.finish s.iv { Response.ok s.free with ri := IntPort.ofInt v }, _, by rw [h]; rfl, rfl, ⟨rfl, rfl, rfl⟩, hp, rfl⟩

theorem answersHex_ok (s : State) {x : Except CmdError (List HexChar)} {cs : List HexChar} (h : x = .ok cs)
    (P : HexPort → Prop) (hp : P (HexPort.ofString cs)) :
    ∃ t r, s.answerHex x = .next t ∧ t.resp = some r ∧ r.Success ∧ P r.rh ∧ t.iv = s.iv :=
  ⟨s.finish s.iv { Response.ok s.free with rh := HexPort.ofString cs }, _, by rw [h]; rfl, rfl, ⟨rfl, rfl, rfl⟩, hp, rfl⟩

/-- Taking an error, as a requester sees it. -/
theorem takeError_reports (s : State) {e : CmdError} (b : Bool) {n1 n2 n3 : Nat} (h1 : e.err.toNat = n1)
    (h2 : e.sub.toNat = n2) (h3 : e.info.toNat = n3) :
    ∃ r, (s.takeError e b).resp = some r ∧ r.Reports n1 n2 n3 :=
  ⟨_, rfl, h1, h2, h3⟩

theorem answersBits_error (s : State) {x : Except CmdError BitString} {e : CmdError} {n1 n2 n3 : Nat} (h : x = .error e)
    (h1 : e.err.toNat = n1) (h2 : e.sub.toNat = n2) (h3 : e.info.toNat = n3) :
    ∃ t r, s.answerBits x = .next t ∧ t.resp = some r ∧ r.Reports n1 n2 n3 ∧ t.iv = s.iv :=
  ⟨s.takeError e false, _, by rw [h]; rfl, rfl, ⟨h1, h2, h3⟩, rfl⟩

theorem answersInt_error (s : State) {x : Except CmdError Int} {e : CmdError} {n1 n2 n3 : Nat} (h : x = .error e)
    (h1 : e.err.toNat = n1) (h2 : e.sub.toNat = n2) (h3 : e.info.toNat = n3) :
    ∃ t r, s.answerInt x = .next t ∧ t.resp = some r ∧ r.Reports n1 n2 n3 ∧ t.iv = s.iv :=
  ⟨s.takeError e false, _, by rw [h]; rfl, rfl, ⟨h1, h2, h3⟩, rfl⟩

theorem answersHex_error (s : State) {x : Except CmdError (List HexChar)} {e : CmdError} {n1 n2 n3 : Nat}
    (h : x = .error e) (h1 : e.err.toNat = n1) (h2 : e.sub.toNat = n2) (h3 : e.info.toNat = n3) :
    ∃ t r, s.answerHex x = .next t ∧ t.resp = some r ∧ r.Reports n1 n2 n3 ∧ t.iv = s.iv :=
  ⟨s.takeError e false, _, by rw [h]; rfl, rfl, ⟨h1, h2, h3⟩, rfl⟩

/-! The codec operations. -/

/-- The register after a successful FILLD (R150). -/
def IV.ofDecimal (n : Nat) (F : Fmt) (d : List Int) (b : List BitString) : IV :=
  { status := .filled, fmt := F, src := .dec, mode := .unsigned, dec := decSlots n d, fb := fbSlots n b,
    word := Config.freeWord n }

/-- The register after a successful FILLB (R154). -/
def IV.ofBits (n : Nat) (F : Fmt) (b : List BitString) (m : Mode) : IV :=
  { status := .filled, fmt := F, src := .bits, mode := F.storedMode m, dec := decSlots n (fieldValues F m 0 b),
    fb := fbSlots n b, word := Config.freeWord n }

/-- The register after a successful DECODE (R162). -/
def IV.ofWord (n : Nat) (F : Fmt) (u : BitString) (m : Mode) : IV :=
  { status := .composed, fmt := F, src := .hex, mode := F.storedMode m,
    dec := decSlots n (fieldValues F m 0 (F.slices u)), fb := fbSlots n (F.slices u), word := wordOf u }

theorem widths_bounds (F : Fmt) : ∀ w ∈ F.widths, 0 < w ∧ w ≤ 32 := by cases F <;> decide

/-- Everything FILLD can answer. -/
theorem fillDecimal_cases (s : State) (F : Fmt) {d : List Int} (hl : d.length = F.nfields) :
    (∃ b, s.fillDecimal F d = .next (s.finish (IV.ofDecimal s.free F d b) (Response.ok s.free)) ∧
      b.length = F.nfields ∧
      ∀ k, k < F.nfields → decimalToBits (d.getD k 0) (F.width k) = .ok (b.getD k [])) ∨
    (∃ k, k < F.nfields ∧ 2 ^ F.width k ≤ (d.getD k 0).natAbs ∧
      (∀ j, j < k → (d.getD j 0).natAbs < 2 ^ F.width j) ∧
      s.fillDecimal F d = .next (s.takeError (.range k) true)) := by
  rcases encodeFields_cases (ws := F.widths) (ds := d) (by simpa using hl) (widths_bounds F) 0 with
    ⟨b, he, hb, hall⟩ | ⟨k, hk, hbig, hsm, he⟩
  · exact .inl ⟨b, by simp [State.fillDecimal, he, IV.ofDecimal], by simpa using hb,
      fun k hk => hall k (by simpa using hk)⟩
  · exact .inr ⟨k, by simpa using hk, hbig, hsm, by simp [State.fillDecimal, he]⟩

/-- Everything FILLB can answer. -/
theorem fillBits_cases (s : State) (F : Fmt) {a : List BitsOperand} (m : Mode) (hl : a.length = F.nfields) :
    (∃ b, s.fillBits F a m = .next (s.finish (IV.ofBits s.free F b m) (Response.ok s.free)) ∧ a = b.map .str ∧
      b.length = F.nfields ∧ ∀ k, k < F.nfields → (b.getD k []).length = F.width k) ∨
    (∃ k, k < F.nfields ∧ (∀ b, a.getD k (.overlong 0) = .str b → b.length ≠ F.width k) ∧
      (∀ j, j < k → ∃ b, a.getD j (.overlong 0) = .str b ∧ b.length = F.width j) ∧
      s.fillBits F a m = .next (s.takeError (.precondition .fieldWidth k) true)) := by
  rcases checkFields_cases (ws := F.widths) (as := a) (by simpa using hl) 0 with
    ⟨b, he, ha, hb, hall⟩ | ⟨k, hk, hbad, hgood, he⟩
  · exact .inl ⟨b, by simp [State.fillBits, he, IV.ofBits], ha, by simpa using hb,
      fun k hk => hall k (by simpa using hk)⟩
  · exact .inr ⟨k, by simpa using hk, hbad, hgood, by simp [State.fillBits, he]⟩

theorem compose_ok {s : State} {F : Fmt} (h : s.iv.status = .filled ∨ s.iv.status = .composed) (hF : s.iv.fmt = F) :
    s.compose F = .next (s.finish s.iv.compose
      { Response.ok s.free with
        rb := BitsPort.ofString (wordBits s.iv.compose.word), rh := HexPort.ofString s.iv.compose.hexview }) :=
  if_pos ⟨h, hF⟩

theorem compose_stateError {s : State} {F : Fmt}
    (h : ¬ ((s.iv.status = .filled ∨ s.iv.status = .composed) ∧ s.iv.fmt = F)) :
    s.compose F = .next (s.takeError .state false) := if_neg h

/-- Everything DECODE can answer. -/
theorem decodeHex_cases (s : State) (F : Fmt) (h : HexOperand) (m : Mode) :
    (∃ cs ds, h = .str cs ∧ Spells cs ds ∧ ds.length = 8 ∧
      s.decodeHex F h m =
        .next (s.finish (IV.ofWord s.free F (ds.flatMap (bitsN 4)) m) (Response.ok s.free))) ∨
    ((∀ cs, h = .str cs → cs.length ≠ 8) ∧
      s.decodeHex F h m = .next (s.takeError (.precondition .wordLength 0) true)) ∨
    (∃ cs k, h = .str cs ∧ cs.length = 8 ∧ ∃ hk : k < cs.length, digit cs[k] = none ∧
      (∀ i, (hi : i < k) → digit cs[i] ≠ none) ∧
      s.decodeHex F h m = .next (s.takeError (.precondition .badHexDigit k) true)) := by
  rcases wordString_cases h with ⟨cs, ds, hc, hs, h8, hx⟩ | ⟨hn, hx⟩ | ⟨cs, k, hc, h8, hk, hd, hl, hx⟩
  · exact .inl ⟨cs, ds, hc, hs, h8, by simp [State.decodeHex, hx, IV.ofWord]⟩
  · exact .inr (.inl ⟨hn, by simp [State.decodeHex, hx]⟩)
  · exact .inr (.inr ⟨cs, k, hc, h8, hk, hd, hl, by simp [State.decodeHex, hx]⟩)

/-! The register's parts after each. -/

@[simp] theorem ofDecimal_status (n F d b) : (IV.ofDecimal n F d b).status = .filled := rfl
@[simp] theorem ofDecimal_fmt (n F d b) : (IV.ofDecimal n F d b).fmt = F := rfl
@[simp] theorem ofDecimal_src (n F d b) : (IV.ofDecimal n F d b).src = .dec := rfl
@[simp] theorem ofDecimal_mode (n F d b) : (IV.ofDecimal n F d b).mode = .unsigned := rfl
@[simp] theorem ofBits_status (n F b m) : (IV.ofBits n F b m).status = .filled := rfl
@[simp] theorem ofBits_fmt (n F b m) : (IV.ofBits n F b m).fmt = F := rfl
@[simp] theorem ofBits_src (n F b m) : (IV.ofBits n F b m).src = .bits := rfl
@[simp] theorem ofBits_mode (n F b m) : (IV.ofBits n F b m).mode = F.storedMode m := rfl
@[simp] theorem ofWord_status (n F u m) : (IV.ofWord n F u m).status = .composed := rfl
@[simp] theorem ofWord_fmt (n F u m) : (IV.ofWord n F u m).fmt = F := rfl
@[simp] theorem ofWord_src (n F u m) : (IV.ofWord n F u m).src = .hex := rfl
@[simp] theorem ofWord_mode (n F u m) : (IV.ofWord n F u m).mode = F.storedMode m := rfl
@[simp] theorem ofWord_word (n F u m) : (IV.ofWord n F u m).word = wordOf u := rfl

theorem ofDecimal_decAt (n : Nat) {F : Fmt} {d : List Int} (b : List BitString) (hl : d.length = F.nfields) {k : Nat}
    (hk : k < F.nfields) : (IV.ofDecimal n F d b).decAt k = d.getD k 0 :=
  decSlots_live n (by omega) (by have := F.nfields_le; omega)

theorem ofDecimal_fbAt (n : Nat) {F : Fmt} (d : List Int) {b : List BitString} (hl : b.length = F.nfields) {k : Nat}
    (hk : k < F.nfields) : (IV.ofDecimal n F d b).fbAt k = b.getD k [] :=
  fbSlots_live n (by omega) (by have := F.nfields_le; omega)

theorem ofBits_fbAt (n : Nat) {F : Fmt} {b : List BitString} (m : Mode) (hl : b.length = F.nfields) {k : Nat}
    (hk : k < F.nfields) : (IV.ofBits n F b m).fbAt k = b.getD k [] :=
  fbSlots_live n (by omega) (by have := F.nfields_le; omega)

theorem ofBits_decAt (n : Nat) {F : Fmt} {b : List BitString} (m : Mode) (hl : b.length = F.nfields) {k : Nat}
    (hk : k < F.nfields) : (IV.ofBits n F b m).decAt k = valueOf (b.getD k []) (F.fieldMode m k) := by
  have h := decSlots_live n (ds := fieldValues F m 0 b) (k := k) (by rw [fieldValues_length]; omega)
    (by have := F.nfields_le; omega)
  rw [fieldValues_getD F m 0 (by omega), Nat.zero_add] at h
  exact h

theorem ofWord_fbAt (n : Nat) {F : Fmt} (u : BitString) (m : Mode) {k : Nat} (hk : k < F.nfields) :
    (IV.ofWord n F u m).fbAt k = F.slice k u := by
  rw [← Fmt.slices_getD hk]
  exact fbSlots_live n (by simpa using hk) (by have := F.nfields_le; omega)

theorem ofWord_decAt (n : Nat) {F : Fmt} (u : BitString) (m : Mode) {k : Nat} (hk : k < F.nfields) :
    (IV.ofWord n F u m).decAt k = valueOf (F.slice k u) (F.fieldMode m k) := by
  have h := decSlots_live n (ds := fieldValues F m 0 (F.slices u)) (k := k)
    (by rw [fieldValues_length]; simpa using hk) (by have := F.nfields_le; omega)
  rw [fieldValues_getD F m 0 (by simpa using hk), Nat.zero_add, Fmt.slices_getD hk] at h
  exact h

theorem ofDecimal_liveFb (n : Nat) {F : Fmt} (d : List Int) {b : List BitString} (hl : b.length = F.nfields) :
    (IV.ofDecimal n F d b).liveFb = b := fbSlots_take n hl

theorem ofBits_liveFb (n : Nat) {F : Fmt} {b : List BitString} (m : Mode) (hl : b.length = F.nfields) :
    (IV.ofBits n F b m).liveFb = b := fbSlots_take n hl

theorem ofWord_liveFb (n : Nat) (F : Fmt) (u : BitString) (m : Mode) : (IV.ofWord n F u m).liveFb = F.slices u :=
  fbSlots_take n (by simp)

/-! Live fields, the word and its hex view. -/

@[simp] theorem liveFb_length (v : IV) : v.liveFb.length = v.fmt.nfields := by
  have := v.fmt.nfields_le
  simp [IV.liveFb]; omega

theorem liveFb_getD (v : IV) {k : Nat} (hk : k < v.fmt.nfields) : v.liveFb.getD k [] = v.fbAt k := by
  simp [IV.liveFb, IV.fbAt, List.getD, hk]

/-- The live fields of a consistent value have their widths (R25). -/
theorem liveFb_widths {v : IV} (h : v.Consistent) (hs : v.status = .filled ∨ v.status = .composed) {k : Nat}
    (hk : k < v.fmt.nfields) : (v.liveFb.getD k []).length = v.fmt.width k := by
  rw [liveFb_getD v hk]
  exact ((h.1 hs).1 k hk).1

/-- Fields of their widths, joined, are 32 bits, and slicing gives them back (R54, R70). -/
theorem slices_flatten_fields (F : Fmt) {l : List BitString} (hl : l.length = F.nfields)
    (h : ∀ k, k < F.nfields → (l.getD k []).length = F.width k) :
    l.flatten.length = 32 ∧ F.slices l.flatten = l := by
  cases F with
  | R =>
    match l, hl with
    | [a, b, c, d, e, f], _ =>
      have h0 : a.length = 6 := h 0 (by decide)
      have h1 : b.length = 5 := h 1 (by decide)
      have h2 : c.length = 5 := h 2 (by decide)
      have h3 : d.length = 5 := h 3 (by decide)
      have h4 : e.length = 5 := h 4 (by decide)
      have h5 : f.length = 6 := h 5 (by decide)
      refine ⟨by simp [h0, h1, h2, h3, h4, h5], ?_⟩
      match a, h0, b, h1, c, h2, d, h3, e, h4, f, h5 with
      | [_, _, _, _, _, _], _, [_, _, _, _, _], _, [_, _, _, _, _], _, [_, _, _, _, _], _, [_, _, _, _, _], _,
        [_, _, _, _, _, _], _ => rfl
  | I =>
    match l, hl with
    | [a, b, c, d], _ =>
      have h0 : a.length = 6 := h 0 (by decide)
      have h1 : b.length = 5 := h 1 (by decide)
      have h2 : c.length = 5 := h 2 (by decide)
      have h3 : d.length = 16 := h 3 (by decide)
      refine ⟨by simp [h0, h1, h2, h3], ?_⟩
      match a, h0, b, h1, c, h2, d, h3 with
      | [_, _, _, _, _, _], _, [_, _, _, _, _], _, [_, _, _, _, _], _,
        [_, _, _, _, _, _, _, _, _, _, _, _, _, _, _, _], _ => rfl
  | J =>
    match l, hl with
    | [a, b], _ =>
      have h0 : a.length = 6 := h 0 (by decide)
      have h1 : b.length = 26 := h 1 (by decide)
      refine ⟨by simp [h0, h1], ?_⟩
      match a, h0, b, h1 with
      | [_, _, _, _, _, _], _,
        [_, _, _, _, _, _, _, _, _, _, _, _, _, _, _, _, _, _, _, _, _, _, _, _, _, _], _ => rfl

@[simp] theorem hexview_length (v : IV) : v.hexview.length = 8 := by simp [IV.hexview]

/-- The hex port after COMPOSE carries the word's eight digits (R26, R84). -/
theorem hexview_carries (v : IV) :
    CarriesHex (HexPort.ofString v.hexview) 8 (fun j => v.word.toNat / 16 ^ (7 - j) % 16) := by
  have h := carriesHex_ofString (cs := v.hexview) (by simp) (d := fun j => v.word.toNat / 16 ^ (7 - j) % 16) (by
    intro j hj
    rw [hexview_length] at hj
    have := hexChars_getD (s := wordBits v.word) (n := 8) (by simp) hj 0
    rw [IV.hexview, this]; simp)
  rwa [hexview_length] at h

theorem toNat_wordOf_digits {ds : List Nat} (h : ∀ d ∈ ds, d < 16) (h8 : ds.length = 8) :
    (wordOf (ds.flatMap (bitsN 4))).toNat = digitsValue ds := by
  rw [← nat_wordBits, wordBits_wordOf (by rw [length_flatMap_bitsN]; omega), nat_flatMap h]

/-- Characters spell one list of digits. -/
theorem spells_unique {cs : List HexChar} {ds ds' : List Nat} (h : Spells cs ds) (h' : Spells cs ds') : ds = ds' := by
  obtain ⟨h1, rfl⟩ := h
  obtain ⟨h2, e⟩ := h'
  have key : ∀ l : List Nat, (∀ d ∈ l, d < 16) → (l.map chr).map digit = l.map some := by
    intro l hl
    rw [List.map_map]
    exact List.map_congr_left (fun d hd => digit_chr (hl d hd))
  have := congrArg (List.map digit) e
  rw [key _ h1, key _ h2] at this
  exact List.map_injective_iff.mpr (Option.some_injective _) this

theorem valueOf_of_length {b : BitString} {w : Nat} (h : b.length = w) (h0 : 0 < w) (m : Mode) :
    valueOf b m = valueInMode w (nat b) m := by
  subst h; exact valueOf_eq_valueInMode h0 m

/-! Commands of one kind are one operation. -/

theorem exec_fillDecimal {i : Instr} {F : Fmt} {d : List Int} (h : asFillDecimal i = some (F, d)) (s : State) :
    exec i s = s.fillDecimal F d ∧ d.length = F.nfields := by
  cases i <;> cases h <;> exact ⟨rfl, rfl⟩

theorem exec_fillBits {i : Instr} {F : Fmt} {a : List BitsOperand} {m : Mode} (h : asFillBits i = some (F, a, m))
    (s : State) : exec i s = s.fillBits F a m ∧ a.length = F.nfields ∧ F.storedMode m = m := by
  cases i <;> cases h <;> exact ⟨rfl, rfl, rfl⟩

theorem exec_compose {i : Instr} {F : Fmt} (h : asCompose i = some F) (s : State) : exec i s = s.compose F := by
  cases i <;> cases h <;> rfl

theorem exec_decodeHex {i : Instr} {F : Fmt} {h : HexOperand} {m : Mode} (hi : asDecodeHex i = some (F, h, m))
    (s : State) : exec i s = s.decodeHex F h m ∧ F.storedMode m = m := by
  cases i <;> cases hi <;> exact ⟨rfl, rfl⟩

/-- A primitive is one of the three answers, and what it answers does not depend on the state. -/
theorem primitive_answers {i : Instr} (h : isPrimitive i = true) :
    (∃ x, ∀ s, exec i s = s.answerBits x) ∨ (∃ x, ∀ s, exec i s = s.answerInt x) ∨
    (∃ x, ∀ s, exec i s = s.answerHex x) := by
  cases i <;> first
    | exact .inl ⟨_, fun _ => rfl⟩
    | exact .inr (.inl ⟨_, fun _ => rfl⟩)
    | exact .inr (.inr ⟨_, fun _ => rfl⟩)
    | exact absurd h (by simp [isPrimitive, Instr.code])

/-- A primitive succeeds or takes an error, and keeps the register either way. -/
theorem primitive_cases {i : Instr} {s : State} (hs : startsValue i = false) (h : isPrimitive i = true) :
    (∃ r, exec i s = .next (s.finish s.iv r) ∧ r.Success ∧ isPrimitive i = true) ∨
    (∃ e, exec i s = .next (s.takeError e (startsValue i))) := by
  rw [hs]
  rcases primitive_answers h with ⟨x, hx⟩ | ⟨x, hx⟩ | ⟨x, hx⟩ <;> cases x <;>
    first | exact .inr ⟨_, hx s⟩ | exact .inl ⟨_, hx s, ⟨rfl, rfl, rfl⟩, h⟩

/-- Everything a command can do: succeed, keeping the register (a primitive), writing a new value (a fill or decode) or
composing; or take an error, the register INVALID (a fill or decode) or kept (any other). -/
theorem exec_cases (i : Instr) (s : State) :
    (∃ r, exec i s = .next (s.finish s.iv r) ∧ r.Success ∧ isPrimitive i = true) ∨
    (∃ F d b, asFillDecimal i = some (F, d) ∧ d.length = F.nfields ∧ b.length = F.nfields ∧
      (∀ k, k < F.nfields → decimalToBits (d.getD k 0) (F.width k) = .ok (b.getD k [])) ∧
      exec i s = .next (s.finish (IV.ofDecimal s.free F d b) (Response.ok s.free))) ∨
    (∃ F b m, asFillBits i = some (F, b.map .str, m) ∧ b.length = F.nfields ∧
      (∀ k, k < F.nfields → (b.getD k []).length = F.width k) ∧
      exec i s = .next (s.finish (IV.ofBits s.free F b m) (Response.ok s.free))) ∨
    (∃ F cs ds m, asDecodeHex i = some (F, .str cs, m) ∧ Spells cs ds ∧ ds.length = 8 ∧
      exec i s = .next (s.finish (IV.ofWord s.free F (ds.flatMap (bitsN 4)) m) (Response.ok s.free))) ∨
    (∃ r, asCompose i = some s.iv.fmt ∧ (s.iv.status = .filled ∨ s.iv.status = .composed) ∧
      exec i s = .next (s.finish s.iv.compose r) ∧ r.Success) ∨
    (∃ e, exec i s = .next (s.takeError e (startsValue i))) := by
  by_cases h1 : ∃ F d, asFillDecimal i = some (F, d)
  · obtain ⟨F, d, h⟩ := h1
    obtain ⟨e, hl⟩ := exec_fillDecimal h s
    have hs : startsValue i = true := by simp [startsValue, h]
    rcases fillDecimal_cases s F hl with ⟨b, he, hb, hall⟩ | ⟨k, -, -, -, he⟩
    · exact .inr (.inl ⟨F, d, b, h, hl, hb, hall, by rw [e, he]⟩)
    · exact .inr (.inr (.inr (.inr (.inr ⟨_, by rw [e, he, hs]⟩))))
  by_cases h2 : ∃ F a m, asFillBits i = some (F, a, m)
  · obtain ⟨F, a, m, h⟩ := h2
    obtain ⟨e, hl, -⟩ := exec_fillBits h s
    have hs : startsValue i = true := by simp [startsValue, h]
    rcases fillBits_cases s F m hl with ⟨b, he, rfl, hb, hall⟩ | ⟨k, -, -, -, he⟩
    · exact .inr (.inr (.inl ⟨F, b, m, h, hb, hall, by rw [e, he]⟩))
    · exact .inr (.inr (.inr (.inr (.inr ⟨_, by rw [e, he, hs]⟩))))
  by_cases h3 : ∃ F h m, asDecodeHex i = some (F, h, m)
  · obtain ⟨F, h, m, hd⟩ := h3
    obtain ⟨e, -⟩ := exec_decodeHex hd s
    have hs : startsValue i = true := by simp [startsValue, hd]
    rcases decodeHex_cases s F h m with ⟨cs, ds, rfl, hsp, h8, he⟩ | ⟨-, he⟩ | ⟨cs, k, -, -, -, -, -, he⟩
    · exact .inr (.inr (.inr (.inl ⟨F, cs, ds, m, hd, hsp, h8, by rw [e, he]⟩)))
    · exact .inr (.inr (.inr (.inr (.inr ⟨_, by rw [e, he, hs]⟩))))
    · exact .inr (.inr (.inr (.inr (.inr ⟨_, by rw [e, he, hs]⟩))))
  have hs : startsValue i = false := by
    cases i <;> first | rfl | exact absurd ⟨_, _, rfl⟩ h1 | exact absurd ⟨_, _, _, rfl⟩ h2 |
      exact absurd ⟨_, _, _, rfl⟩ h3
  by_cases h4 : ∃ F, asCompose i = some F
  · obtain ⟨F, h⟩ := h4
    have e := exec_compose h s
    by_cases hc : (s.iv.status = .filled ∨ s.iv.status = .composed) ∧ s.iv.fmt = F
    · obtain ⟨hst, rfl⟩ := hc
      exact .inr (.inr (.inr (.inr (.inl ⟨_, h, hst, by rw [e, compose_ok hst rfl], ⟨rfl, rfl, rfl⟩⟩))))
    · exact .inr (.inr (.inr (.inr (.inr ⟨_, by rw [e, compose_stateError hc, hs]⟩))))
  by_cases h5 : isPrimitive i = true
  · rcases primitive_cases hs h5 (s := s) with h | h
    · exact .inl h
    · exact .inr (.inr (.inr (.inr (.inr h))))
  · refine .inr (.inr (.inr (.inr (.inr ⟨.illegalCommand, ?_⟩))))
    rw [hs]
    cases i <;> first
      | rfl
      | exact absurd rfl h5
      | exact absurd ⟨_, rfl⟩ h4
      | exact absurd ⟨_, _, rfl⟩ h1
      | exact absurd ⟨_, _, _, rfl⟩ h2
      | exact absurd ⟨_, _, _, rfl⟩ h3

end Sys2Proof.Machine
end

