-- ==== Sys2Proof/Laws/Errors.lean ====
section
/-! SUPPORT. Laws/Errors.lean: which errors a primitive can end in, and that a command neither reads nor writes the inputs. -/

namespace Sys2Proof.Machine

/-- The errors a primitive can end in: only BAD_HEX_DIGIT records an index (R110, R202). -/
def PrimitiveError (e : CmdError) : Prop :=
  e = .range 0 ∨ (∃ c, e = .precondition c 0) ∨ ∃ j, e = .precondition .badHexDigit j

theorem primitiveError_range : PrimitiveError (.range 0) := .inl rfl

theorem primitiveError_precondition (c : SubCause) : PrimitiveError (.precondition c 0) := .inr (.inl ⟨c, rfl⟩)

theorem primitiveError_badHexDigit (j : Nat) : PrimitiveError (.precondition .badHexDigit j) := .inr (.inr ⟨j, rfl⟩)

theorem readBits_primitiveError {a : BitsOperand} {e : CmdError} (h : readBits a = .error e) : PrimitiveError e := by
  unfold readBits at h
  repeat' split at h
  all_goals cases h
  all_goals exact primitiveError_precondition _

theorem bitExtend_primitiveError {a : BitsOperand} {t : Nat} {x : ExtKind} {e : CmdError}
    (h : bitExtend a t x = .error e) : PrimitiveError e := by
  unfold bitExtend at h
  split at h
  · next he => cases h; exact readBits_primitiveError he
  · repeat' split at h
    all_goals cases h
    all_goals first | exact primitiveError_range | exact primitiveError_precondition _

theorem decimalToBits_primitiveError {v : Int} {t : Nat} {e : CmdError} (h : decimalToBits v t = .error e) :
    PrimitiveError e := by
  unfold decimalToBits at h
  repeat' split at h
  all_goals cases h
  all_goals first | exact primitiveError_range | exact primitiveError_precondition _

theorem bitsToDecimal_primitiveError {a : BitsOperand} {m : Mode} {e : CmdError} (h : bitsToDecimal a m = .error e) :
    PrimitiveError e := by
  unfold bitsToDecimal at h
  split at h
  · next he => cases h; exact readBits_primitiveError he
  · split at h <;> cases h; exact primitiveError_precondition _

theorem bitsToHex_primitiveError {a : BitsOperand} {e : CmdError} (h : bitsToHex a = .error e) : PrimitiveError e := by
  unfold bitsToHex at h
  split at h
  · next he => cases h; exact readBits_primitiveError he
  · split at h <;> cases h; exact primitiveError_precondition _

theorem expandDigits_primitiveError {j : Nat} {cs : List HexChar} {e : CmdError} (h : expandDigits j cs = .error e) :
    PrimitiveError e := by
  induction cs generalizing j e with
  | nil => cases h
  | cons c cs ih =>
    unfold expandDigits at h
    split at h
    · cases h; exact primitiveError_badHexDigit j
    · split at h
      · next he => cases h; exact ih he
      · cases h

theorem hexToBits_primitiveError {a : HexOperand} {e : CmdError} (h : hexToBits a = .error e) : PrimitiveError e := by
  unfold hexToBits at h
  repeat' split at h
  · cases h; exact primitiveError_precondition _
  · cases h; exact primitiveError_precondition _
  · exact expandDigits_primitiveError h

theorem hexToDecimal_primitiveError {a : HexOperand} {m : Mode} {e : CmdError} (h : hexToDecimal a m = .error e) :
    PrimitiveError e := by
  unfold hexToDecimal at h
  split at h
  · next he => cases h; exact hexToBits_primitiveError he
  · exact bitsToDecimal_primitiveError h

theorem decimalToHex_primitiveError {v : Int} {n : Nat} {e : CmdError} (h : decimalToHex v n = .error e) :
    PrimitiveError e := by
  unfold decimalToHex at h
  repeat' split at h
  · cases h; exact primitiveError_precondition _
  · next he => cases h; exact decimalToBits_primitiveError he
  · exact bitsToHex_primitiveError h

/-- How a primitive ends: its register kept, and a success or one of its own errors. -/
theorem primitive_outcome {i : Instr} (hp : isPrimitive i = true) (s : State) :
    (∃ r, exec i s = .next (s.finish s.iv r) ∧ r.Success) ∨
    ∃ e, PrimitiveError e ∧ exec i s = .next (s.takeError e false) := by
  have bits (x : Except CmdError BitString) (hx : ∀ e, x = .error e → PrimitiveError e) :
      (∃ r, s.answerBits x = .next (s.finish s.iv r) ∧ r.Success) ∨
      ∃ e, PrimitiveError e ∧ s.answerBits x = .next (s.takeError e false) := by
    cases x with
    | ok b => exact .inl ⟨_, rfl, rfl, rfl, rfl⟩
    | error e => exact .inr ⟨e, hx e rfl, rfl⟩
  have int (x : Except CmdError Int) (hx : ∀ e, x = .error e → PrimitiveError e) :
      (∃ r, s.answerInt x = .next (s.finish s.iv r) ∧ r.Success) ∨
      ∃ e, PrimitiveError e ∧ s.answerInt x = .next (s.takeError e false) := by
    cases x with
    | ok b => exact .inl ⟨_, rfl, rfl, rfl, rfl⟩
    | error e => exact .inr ⟨e, hx e rfl, rfl⟩
  have hex (x : Except CmdError (List HexChar)) (hx : ∀ e, x = .error e → PrimitiveError e) :
      (∃ r, s.answerHex x = .next (s.finish s.iv r) ∧ r.Success) ∨
      ∃ e, PrimitiveError e ∧ s.answerHex x = .next (s.takeError e false) := by
    cases x with
    | ok b => exact .inl ⟨_, rfl, rfl, rfl, rfl⟩
    | error e => exact .inr ⟨e, hx e rfl, rfl⟩
  cases i
  case ones a =>
    refine bits _ fun e h => ?_
    unfold onesComplement at h
    split at h <;> cases h
    next he => exact readBits_primitiveError he
  case twos a =>
    refine bits _ fun e h => ?_
    unfold twosComplement at h
    split at h <;> cases h
    next he => exact readBits_primitiveError he
  case bext => exact bits _ fun _ => bitExtend_primitiveError
  case d2b => exact bits _ fun _ => decimalToBits_primitiveError
  case b2d => exact int _ fun _ => bitsToDecimal_primitiveError
  case h2b => exact bits _ fun _ => hexToBits_primitiveError
  case b2h => exact hex _ fun _ => bitsToHex_primitiveError
  case h2d => exact int _ fun _ => hexToDecimal_primitiveError
  case d2h => exact hex _ fun _ => decimalToHex_primitiveError
  all_goals exact absurd hp (by simp [isPrimitive, Instr.code])

/-- A command neither reads nor writes what is presented for later steps. -/
theorem exec_inputs (i : Instr) (s : State) (l : List Input) :
    ∃ t, exec i s = .next t ∧ exec i { s with inputs := l } = .next { t with inputs := l } ∧ t.inputs = s.inputs := by
  by_cases hp : isPrimitive i = true
  · rcases primitive_answers hp with ⟨x, hx⟩ | ⟨x, hx⟩ | ⟨x, hx⟩ <;> cases x <;> exact ⟨_, hx s, hx _, rfl⟩
  cases i <;> first
    | exact ⟨_, rfl, rfl, rfl⟩
    | (simp only [exec, execFilldR, execFilldI, execFilldJ, State.fillDecimal]
       generalize encodeFields _ _ _ = x
       cases x <;> exact ⟨_, rfl, rfl, rfl⟩)
    | (simp only [exec, execFillbR, execFillbI, execFillbJ, State.fillBits]
       generalize checkFields _ _ _ = x
       cases x <;> exact ⟨_, rfl, rfl, rfl⟩)
    | (simp only [exec, execDecodeR, execDecodeI, execDecodeJ, State.decodeHex]
       generalize wordString _ = x
       cases x <;> exact ⟨_, rfl, rfl, rfl⟩)
    | (simp only [exec, execComposeR, execComposeI, execComposeJ, State.compose]
       split <;> exact ⟨_, rfl, rfl, rfl⟩)
    | (exfalso; apply hp; rfl)

end Sys2Proof.Machine
end

