-- ==== Sys2Proof/Laws/PerInstr.lean ====
section
/-! SUPPORT. Laws/PerInstr.lean: the statements made once per command. -/

namespace Sys2Proof.Laws

/-- The request that presents a command carries its code (R85, R86), and a request with that code presents a command of
the same code whatever else it holds. -/
def RequestCode.Statement (i : Instr) : Prop :=
  (encode i).cmd = i.code ∧ ∀ r : Request, r.cmd = i.code → (decode r).code = i.code

theorem RequestCode.ones (a : BitsOperand) : RequestCode.Statement (.ones a) :=
  ⟨rfl, fun r h => by simp [decode, h, Instr.code]⟩

theorem RequestCode.twos (a : BitsOperand) : RequestCode.Statement (.twos a) :=
  ⟨rfl, fun r h => by simp [decode, h, Instr.code]⟩

theorem RequestCode.bext (a : BitsOperand) (t : Nat) (x : ExtKind) : RequestCode.Statement (.bext a t x) :=
  ⟨rfl, fun r h => by simp [decode, h, Instr.code]⟩

theorem RequestCode.d2b (v : Int) (t : Nat) : RequestCode.Statement (.d2b v t) :=
  ⟨rfl, fun r h => by simp [decode, h, Instr.code]⟩

theorem RequestCode.b2d (a : BitsOperand) (m : Mode) : RequestCode.Statement (.b2d a m) :=
  ⟨rfl, fun r h => by simp [decode, h, Instr.code]⟩

theorem RequestCode.h2b (h : HexOperand) : RequestCode.Statement (.h2b h) :=
  ⟨rfl, fun r h => by simp [decode, h, Instr.code]⟩

theorem RequestCode.b2h (a : BitsOperand) : RequestCode.Statement (.b2h a) :=
  ⟨rfl, fun r h => by simp [decode, h, Instr.code]⟩

theorem RequestCode.h2d (h : HexOperand) (m : Mode) : RequestCode.Statement (.h2d h m) :=
  ⟨rfl, fun r h => by simp [decode, h, Instr.code]⟩

theorem RequestCode.d2h (v : Int) (n : Nat) : RequestCode.Statement (.d2h v n) :=
  ⟨rfl, fun r h => by simp [decode, h, Instr.code]⟩

theorem RequestCode.filldR (op rs rt rd shamt funct : Int) : RequestCode.Statement (.filldR op rs rt rd shamt funct) :=
  ⟨rfl, fun r h => by simp [decode, h, Instr.code]⟩

theorem RequestCode.filldI (op rs rt imm : Int) : RequestCode.Statement (.filldI op rs rt imm) :=
  ⟨rfl, fun r h => by simp [decode, h, Instr.code]⟩

theorem RequestCode.filldJ (op address : Int) : RequestCode.Statement (.filldJ op address) :=
  ⟨rfl, fun r h => by simp [decode, h, Instr.code]⟩

theorem RequestCode.fillbR (op rs rt rd shamt funct : BitsOperand) (m : Mode) : RequestCode.Statement (.fillbR op rs rt rd shamt funct m) :=
  ⟨rfl, fun r h => by simp [decode, h, Instr.code]⟩

theorem RequestCode.fillbI (op rs rt imm : BitsOperand) (m : Mode) : RequestCode.Statement (.fillbI op rs rt imm m) :=
  ⟨rfl, fun r h => by simp [decode, h, Instr.code]⟩

theorem RequestCode.fillbJ (op address : BitsOperand) : RequestCode.Statement (.fillbJ op address) :=
  ⟨rfl, fun r h => by simp [decode, h, Instr.code]⟩

theorem RequestCode.composeR : RequestCode.Statement .composeR := ⟨rfl, fun r h => by simp [decode, h, Instr.code]⟩

theorem RequestCode.composeI : RequestCode.Statement .composeI := ⟨rfl, fun r h => by simp [decode, h, Instr.code]⟩

theorem RequestCode.composeJ : RequestCode.Statement .composeJ := ⟨rfl, fun r h => by simp [decode, h, Instr.code]⟩

theorem RequestCode.decodeR (h : HexOperand) (m : Mode) : RequestCode.Statement (.decodeR h m) :=
  ⟨rfl, fun r h => by simp [decode, h, Instr.code]⟩

theorem RequestCode.decodeI (h : HexOperand) (m : Mode) : RequestCode.Statement (.decodeI h m) :=
  ⟨rfl, fun r h => by simp [decode, h, Instr.code]⟩

theorem RequestCode.decodeJ (h : HexOperand) : RequestCode.Statement (.decodeJ h) :=
  ⟨rfl, fun r h => by simp [decode, h, Instr.code]⟩

theorem RequestCode.reserved09 : RequestCode.Statement .reserved09 :=
  ⟨rfl, fun r h => by simp [decode, h, Instr.code]⟩

theorem RequestCode.reserved0A : RequestCode.Statement .reserved0A :=
  ⟨rfl, fun r h => by simp [decode, h, Instr.code]⟩

theorem RequestCode.reserved0B : RequestCode.Statement .reserved0B :=
  ⟨rfl, fun r h => by simp [decode, h, Instr.code]⟩

theorem RequestCode.reserved0C : RequestCode.Statement .reserved0C :=
  ⟨rfl, fun r h => by simp [decode, h, Instr.code]⟩

theorem RequestCode.reserved0D : RequestCode.Statement .reserved0D :=
  ⟨rfl, fun r h => by simp [decode, h, Instr.code]⟩

theorem RequestCode.reserved0E : RequestCode.Statement .reserved0E :=
  ⟨rfl, fun r h => by simp [decode, h, Instr.code]⟩

theorem RequestCode.reserved0F : RequestCode.Statement .reserved0F :=
  ⟨rfl, fun r h => by simp [decode, h, Instr.code]⟩

theorem RequestCode.reserved13 : RequestCode.Statement .reserved13 :=
  ⟨rfl, fun r h => by simp [decode, h, Instr.code]⟩

theorem RequestCode.reserved17 : RequestCode.Statement .reserved17 :=
  ⟨rfl, fun r h => by simp [decode, h, Instr.code]⟩

theorem RequestCode.reserved1B : RequestCode.Statement .reserved1B :=
  ⟨rfl, fun r h => by simp [decode, h, Instr.code]⟩

theorem RequestCode.reserved1F : RequestCode.Statement .reserved1F :=
  ⟨rfl, fun r h => by simp [decode, h, Instr.code]⟩

end Sys2Proof.Laws
end

