-- ==== Sys2Proof/Tests/Slice0.lean ====
section
/-! SUPPORT. Tests/Slice0.lean: the model's own checks. Expected values are the spec's: its command map (30_encoding.md rules
R81 to R87), the examples and corner cases of its rules, and the vectors of 95_test_vectors.md, named in each comment. The
theorems named `witness_…` show a state and operands that meet the hypotheses of a statement, clause by clause. -/

namespace Sys2Proof.Tests

open Sys2Proof.Machine

/-- A request with a command code and every other field set to ones, so that what a command must not read is there. -/
def noise (c : Nat) : Request where
  cmd := BitVec.ofNat 5 c
  mode := 1
  a := ⟨63, 0xffffffff⟩
  t := 63
  v := 0x1ffffffff
  h := ⟨15, #v[0xff, 0xff, 0xff, 0xff, 0xff, 0xff, 0xff, 0xff]⟩
  fd := #v[0x1ffffffff, 0x1ffffffff, 0x1ffffffff, 0x1ffffffff, 0x1ffffffff, 0x1ffffffff]
  fbits := #v[⟨63, 0xffffffff⟩, ⟨63, 0xffffffff⟩, ⟨63, 0xffffffff⟩, ⟨63, 0xffffffff⟩, ⟨63, 0xffffffff⟩, ⟨63, 0xffffffff⟩]

/-- The error fields of what a command answered. -/
def errors : Result → Option (Nat × Nat × Nat)
  | .next t => t.resp.map (fun r => (r.err.toNat, r.sub.toNat, r.info.toNat))
  | .fault _ => none
  | .refused _ => none

/-- The bit-string result: length and data. -/
def bitsResult : Result → Option (Nat × Nat)
  | .next t => t.resp.map (fun r => (r.rb.len.toNat, r.rb.data.toNat))
  | .fault _ => none
  | .refused _ => none

/-- The integer result. -/
def intResult : Result → Option Int
  | .next t => t.resp.map (fun r => r.ri.toInt)
  | .fault _ => none
  | .refused _ => none

/-- The hex result: length and the eight character slots. -/
def hexResult : Result → Option (Nat × List Nat)
  | .next t => t.resp.map (fun r => (r.rh.len.toNat, r.rh.ch.toList.map BitVec.toNat))
  | .fault _ => none
  | .refused _ => none

/-- The register's status, format, source and mode codes, and its six decimal slots cut to the first `n`. -/
def register (n : Nat) : Result → Option (Nat × Nat × Nat × Nat × List Int)
  | .next t =>
    some (t.iv.status.code.toNat, t.iv.fmt.code.toNat, t.iv.src.code.toNat, t.iv.mode.bit.toNat, t.iv.dec.toList.take n)
  | .fault _ => none
  | .refused _ => none

/-- The values of the first `n` bit-string slots, with their lengths. -/
def fields (n : Nat) : Result → Option (List (Nat × Nat))
  | .next t => some ((t.iv.fb.toList.take n).map (fun b => (b.length, nat b)))
  | .fault _ => none
  | .refused _ => none

/-- The register's status and word codes. -/
def wordAfter : Result → Option (Nat × Nat)
  | .next t => some (t.iv.status.code.toNat, t.iv.word.toNat)
  | .fault _ => none
  | .refused _ => none

/-- A block whose register holds an R-format value filled from bits: 95_test_vectors.md V-L2-90. -/
def filledR : State :=
  { State.reset with
    iv := { status := .filled, fmt := .R, src := .bits, mode := .signed, dec := #v[0, 18, 19, 17, -1, 32],
            fb := #v[[false, false, false, false, false, false], [true, false, false, true, false],
                     [true, false, false, true, true], [true, false, false, false, true], [true, true, true, true, true],
                     [true, false, false, false, false, false]],
            word := 0 } }

/-- A block whose register holds an I-format value filled from decimal: R152's example. -/
def filledI : State :=
  { State.reset with
    iv := { status := .filled, fmt := .I, src := .dec, mode := .unsigned, dec := #v[8, 8, 9, -1, 0, 0],
            fb := #v[[false, false, true, false, false, false], [false, true, false, false, false],
                     [false, true, false, false, true], List.replicate 16 true, [], []],
            word := 0 } }

/-- A block whose register holds a J-format value decoded from `0bffffff`: V-L2-122. -/
def composedJ : State :=
  { State.reset with
    iv := { status := .composed, fmt := .J, src := .hex, mode := .unsigned, dec := #v[2, 67108863, 0, 0, 0, 0],
            fb := #v[[false, false, false, false, true, false], List.replicate 26 true, [], [], [], []],
            word := 0x0bffffff } }

/-- A block whose register is INVALID. -/
def invalidState : State := { State.reset with iv := { IV.reset with status := .invalid } }

/-- "02538820" in ASCII (95_test_vectors.md P1). -/
def text02538820 : List HexChar := [0x30, 0x32, 0x35, 0x33, 0x38, 0x38, 0x32, 0x30]

/-- "8c108000" in ASCII (P4). -/
def text8c108000 : List HexChar := [0x38, 0x63, 0x31, 0x30, 0x38, 0x30, 0x30, 0x30]

/-- "0bffffff" in ASCII (P3). -/
def text0bffffff : List HexChar := [0x30, 0x62, 0x66, 0x66, 0x66, 0x66, 0x66, 0x66]

/-- "0253882F" in ASCII: a bad character at index 7 (P5). -/
def text0253882F : List HexChar := [0x30, 0x32, 0x35, 0x33, 0x38, 0x38, 0x32, 0x46]

/-! Well-formedness refuses an ill-formed term for each check. -/

theorem test_wf_bits_length : (Instr.ones (.str (List.replicate 33 false))).wf = false := by decide

theorem test_wf_bits_overlong_low : (Instr.twos (.overlong 32)).wf = false := by decide

theorem test_wf_bits_overlong_high : (Instr.b2h (.overlong 64)).wf = false := by decide

theorem test_wf_hex_length : (Instr.h2b (.str (List.replicate 9 0x30))).wf = false := by decide

theorem test_wf_hex_overlong_low : (Instr.decodeJ (.overlong 8)).wf = false := by decide

theorem test_wf_hex_overlong_high : (Instr.decodeR (.overlong 16) .signed).wf = false := by decide

theorem test_wf_int_high : (Instr.d2b 4294967296 1).wf = false := by decide

theorem test_wf_int_low : (Instr.filldJ 0 (-4294967297)).wf = false := by decide

theorem test_wf_target_length : (Instr.bext (.str []) 64 .zero).wf = false ∧ (Instr.d2h 0 64).wf = false := by decide

theorem test_wf_every_field :
    (Instr.filldR 0 0 0 0 0 4294967296).wf = false ∧ (Instr.filldI 0 0 0 4294967296).wf = false ∧
    (Instr.fillbR (.str []) (.str []) (.str []) (.str []) (.str []) (.overlong 64) .unsigned).wf = false ∧
    (Instr.fillbI (.str []) (.str []) (.str []) (.overlong 64) .unsigned).wf = false ∧
    (Instr.fillbJ (.str []) (.overlong 64)).wf = false := by decide

/-! Decoding: the words of R85 and R86, and the operands on the ports R87 names. -/

/-- R85: `cmd[4] = 0`. -/
theorem test_decode_primitive_codes :
    decodeTableWord 8 0b00000 = some (.ones (.str [])) ∧ decodeTableWord 8 0b00001 = some (.twos (.str [])) ∧
    decodeTableWord 8 0b00010 = some (.bext (.str []) 0 .zero) ∧ decodeTableWord 8 0b00011 = some (.d2b 0 0) ∧
    decodeTableWord 8 0b00100 = some (.b2d (.str []) .unsigned) ∧ decodeTableWord 8 0b00101 = some (.h2b (.str [])) ∧
    decodeTableWord 8 0b00110 = some (.b2h (.str [])) ∧ decodeTableWord 8 0b00111 = some (.h2d (.str []) .unsigned) ∧
    decodeTableWord 8 0b01000 = some (.d2h 0 0) := by decide

/-- R85: kind 00. -/
theorem test_decode_filld_codes :
    decodeTableWord 8 0b10000 = some (.filldR 0 0 0 0 0 0) ∧ decodeTableWord 8 0b10001 = some (.filldI 0 0 0 0) ∧
    decodeTableWord 8 0b10010 = some (.filldJ 0 0) := by decide

/-- R85: kind 01. -/
theorem test_decode_fillb_codes :
    decodeTableWord 8 0b10100 =
      some (.fillbR (.str []) (.str []) (.str []) (.str []) (.str []) (.str []) .unsigned) ∧
    decodeTableWord 8 0b10101 = some (.fillbI (.str []) (.str []) (.str []) (.str []) .unsigned) ∧
    decodeTableWord 8 0b10110 = some (.fillbJ (.str []) (.str [])) := by decide

/-- R85: kinds 10 and 11. -/
theorem test_decode_compose_and_decode_codes :
    decodeTableWord 8 0b11000 = some .composeR ∧ decodeTableWord 8 0b11001 = some .composeI ∧
    decodeTableWord 8 0b11010 = some .composeJ ∧ decodeTableWord 8 0b11100 = some (.decodeR (.str []) .unsigned) ∧
    decodeTableWord 8 0b11101 = some (.decodeI (.str []) .unsigned) ∧
    decodeTableWord 8 0b11110 = some (.decodeJ (.str [])) := by decide

/-- R86. -/
theorem test_decode_reserved_codes :
    decodeTableWord 8 0x09 = some .reserved09 ∧ decodeTableWord 8 0x0A = some .reserved0A ∧
    decodeTableWord 8 0x0B = some .reserved0B ∧ decodeTableWord 8 0x0C = some .reserved0C ∧
    decodeTableWord 8 0x0D = some .reserved0D ∧ decodeTableWord 8 0x0E = some .reserved0E ∧
    decodeTableWord 8 0x0F = some .reserved0F ∧ decodeTableWord 8 0x13 = some .reserved13 ∧
    decodeTableWord 8 0x17 = some .reserved17 ∧ decodeTableWord 8 0x1B = some .reserved1B ∧
    decodeTableWord 8 0x1F = some .reserved1F := by decide

/-- The number of a request (log entry 3): D2B -1, 16 has `cmd` 3, `t` 16 at bit 44 and `v` all ones at bit 50. -/
theorem test_decode_request_number :
    decodeTableWord 88 (0x1ffffffff * 2 ^ 50 + 16 * 2 ^ 44 + 3) = some (.d2b (-1) 16) := by decide

/-- A number with a bit above the request is refused by name. -/
theorem test_decode_too_wide : decodeWord (1 <<< 577) = .error .widerThanARequest := by decide

/-- R81: `data[31:n]` is ignored, and string offset 0 is bit n-1 (V-L2: `0110`). -/
theorem test_decode_bits_operands :
    decode { noise 0x00 with a := ⟨4, 0xfffffff6⟩ } = .ones (.str [false, true, true, false]) ∧
    decode { noise 0x01 with a := ⟨4, 0xfffffff6⟩ } = .twos (.str [false, true, true, false]) ∧
    decode { noise 0x06 with a := ⟨3, 5⟩ } = .b2h (.str [true, false, true]) ∧
    decode { noise 0x06 with a := ⟨33, 5⟩ } = .b2h (.overlong 33) := by decide

/-- R80, R87: `a`, `t` and the extension kind; `a` and the interpretation mode. -/
theorem test_decode_bext_and_b2d :
    decode { noise 0x02 with a := ⟨3, 5⟩, t := 6 } = .bext (.str [true, false, true]) 6 .sign ∧
    decode { noise 0x02 with a := ⟨3, 5⟩, t := 6, mode := 0 } = .bext (.str [true, false, true]) 6 .zero ∧
    decode { noise 0x04 with a := ⟨1, 1⟩ } = .b2d (.str [true]) .signed ∧
    decode { noise 0x04 with a := ⟨1, 1⟩, mode := 0 } = .b2d (.str [true]) .unsigned := by decide

/-- R83: P4's `v` = 0x18c108000 is -1945075712. -/
theorem test_decode_integer_operands :
    decode { noise 0x08 with v := 0x18c108000, t := 8 } = .d2h (-1945075712) 8 ∧
    decode { noise 0x03 with v := 0x100000000, t := 0 } = .d2b (-4294967296) 0 ∧
    decode { noise 0x03 with v := 0x0ffffffff, t := 63 } = .d2b 4294967295 63 := by decide

/-- R84: P4's hex operand, a short one with slots above it ignored, and an over-long one. -/
theorem test_decode_hex_operands :
    decode { noise 0x07 with h := ⟨8, #v[0x38, 0x63, 0x31, 0x30, 0x38, 0x30, 0x30, 0x30]⟩ } =
      .h2d (.str text8c108000) .signed ∧
    decode { noise 0x05 with h := ⟨2, #v[0x38, 0x63, 0xff, 0xff, 0xff, 0xff, 0xff, 0xff]⟩ } = .h2b (.str [0x38, 0x63]) ∧
    decode { noise 0x1E with h := ⟨9, #v[0, 0, 0, 0, 0, 0, 0, 0]⟩ } = .decodeJ (.overlong 9) := by decide

/-- R87: FILLD_F reads `fd[0..nfields-1]` (P1, P2, P3). -/
theorem test_decode_filld_operands :
    decode { noise 0x10 with fd := #v[0, 0x12, 0x13, 0x11, 0, 0x20] } = .filldR 0 18 19 17 0 32 ∧
    decode { noise 0x11 with fd := #v[8, 8, 9, 0x1ffffffff, 7, 7] } = .filldI 8 8 9 (-1) ∧
    decode { noise 0x12 with fd := #v[2, 0x004000000, 7, 7, 7, 7] } = .filldJ 2 67108864 := by decide

/-- R87: FILLB_F reads `fbits[0..nfields-1]`, R and I the mode too (P5). -/
theorem test_decode_fillb_operands :
    decode { noise 0x14 with fbits := #v[⟨6, 0⟩, ⟨5, 0x12⟩, ⟨5, 0x13⟩, ⟨5, 0x11⟩, ⟨5, 0x1f⟩, ⟨6, 0x20⟩] } =
      .fillbR (.str [false, false, false, false, false, false]) (.str [true, false, false, true, false])
        (.str [true, false, false, true, true]) (.str [true, false, false, false, true])
        (.str [true, true, true, true, true]) (.str [true, false, false, false, false, false]) .signed ∧
    decode { noise 0x15 with fbits := #v[⟨6, 8⟩, ⟨5, 8⟩, ⟨5, 9⟩, ⟨15, 0x7fff⟩, ⟨1, 1⟩, ⟨1, 1⟩], mode := 0 } =
      .fillbI (.str [false, false, true, false, false, false]) (.str [false, true, false, false, false])
        (.str [false, true, false, false, true]) (.str (List.replicate 15 true)) .unsigned ∧
    decode { noise 0x16 with fbits := #v[⟨6, 2⟩, ⟨40, 0⟩, ⟨1, 1⟩, ⟨1, 1⟩, ⟨1, 1⟩, ⟨1, 1⟩] } =
      .fillbJ (.str [false, false, false, false, true, false]) (.overlong 40) := by decide

/-- R87: DECODE_R and DECODE_I read `h` and the mode. -/
theorem test_decode_decode_operands :
    decode { noise 0x1C with h := ⟨8, #v[0x30, 0x32, 0x35, 0x33, 0x38, 0x38, 0x32, 0x30]⟩, mode := 0 } =
      .decodeR (.str text02538820) .unsigned ∧
    decode { noise 0x1D with h := ⟨8, #v[0x38, 0x63, 0x31, 0x30, 0x38, 0x30, 0x30, 0x30]⟩ } =
      .decodeI (.str text8c108000) .signed := by decide

/-- A round trip through the number of a request, operands at their ends. -/
theorem test_encode_round_trip :
    decodeWord (encodeWord (.fillbI (.str []) (.str (List.replicate 32 true)) (.overlong 33) (.overlong 63) .signed)) =
      .ok (.fillbI (.str []) (.str (List.replicate 32 true)) (.overlong 33) (.overlong 63) .signed) := by decide

/-! Results: the examples and corner cases of the rules, and the vectors of 95_test_vectors.md. -/

/-- R111's example and its port bound. -/
theorem test_ones :
    bitsResult (exec (.ones (.str [false, true, true, false])) State.reset) = some (4, 0b1001) ∧
    errors (exec (.ones (.overlong 33)) State.reset) = some (2, 6, 0) := by decide

/-- R112's example. -/
theorem test_twos : bitsResult (exec (.twos (.str [false, true, true, false])) State.reset) = some (4, 0b1010) := by decide

/-- R112: the all-zero string maps to itself. -/
theorem test_twos_zero : bitsResult (exec (.twos (.str (List.replicate 8 false))) State.reset) = some (8, 0) := by decide

/-- R114's examples. -/
theorem test_bext :
    bitsResult (exec (.bext (.str [true, false, true]) 6 .sign) State.reset) = some (6, 0b111101) ∧
    bitsResult (exec (.bext (.str [true, false, true]) 6 .zero) State.reset) = some (6, 0b000101) := by decide

/-- R114: never truncates; no leading bit of the empty string; PORT_WIDTH is checked first. -/
theorem test_bext_errors :
    errors (exec (.bext (.str [true, false, true]) 2 .sign) State.reset) = some (1, 0, 0) ∧
    errors (exec (.bext (.str []) 1 .sign) State.reset) = some (2, 4, 0) ∧
    errors (exec (.bext (.str []) 33 .sign) State.reset) = some (2, 6, 0) := by decide

/-- R116: D2B(-32769, 16). -/
theorem test_d2b_wraps : bitsResult (exec (.d2b (-32769) 16) State.reset) = some (16, 0b0111111111111111) := by decide

/-- R115: `|v| = 2^t` does not fit; a target of 0. -/
theorem test_d2b_errors :
    errors (exec (.d2b 65536 16) State.reset) = some (1, 0, 0) ∧ errors (exec (.d2b (-65536) 16) State.reset) = some (1, 0, 0) ∧
    errors (exec (.d2b 0 0) State.reset) = some (2, 5, 0) := by decide

/-- R117's examples. -/
theorem test_b2d :
    intResult (exec (.b2d (.str (List.replicate 16 true)) .signed) State.reset) = some (-1) ∧
    intResult (exec (.b2d (.str (List.replicate 16 true)) .unsigned) State.reset) = some 65535 := by decide

/-- R117: the most negative value of 32 bits, and the empty string. -/
theorem test_b2d_ends :
    intResult (exec (.b2d (.str (true :: List.replicate 31 false)) .signed) State.reset) = some (-2147483648) ∧
    errors (exec (.b2d (.str []) .unsigned) State.reset) = some (2, 4, 0) := by decide

/-- R119's example "2109ffff". -/
theorem test_h2b :
    bitsResult (exec (.h2b (.str [0x32, 0x31, 0x30, 0x39, 0x66, 0x66, 0x66, 0x66])) State.reset) =
      some (32, 0x2109ffff) := by decide

/-- R119: the leftmost character outside '0'-'9', 'a'-'f': the neighbours of both ranges. -/
theorem test_h2b_bad_characters :
    errors (exec (.h2b (.str [0x30, 0x2f, 0x3a])) State.reset) = some (2, 3, 1) ∧
    errors (exec (.h2b (.str [0x39, 0x66, 0x3a])) State.reset) = some (2, 3, 2) ∧
    errors (exec (.h2b (.str [0x60])) State.reset) = some (2, 3, 0) ∧
    errors (exec (.h2b (.str [0x61, 0x67])) State.reset) = some (2, 3, 1) := by decide

/-- R120's nibbles, lowercase, with a leading zero digit; P5 step 3. -/
theorem test_b2h :
    hexResult (exec (.b2h (.str [false, false, false, false, true, false, true, true])) State.reset) =
      some (2, [0x30, 0x62, 0, 0, 0, 0, 0, 0]) ∧
    errors (exec (.b2h (.str [true, false, true])) State.reset) = some (2, 0, 0) := by decide

/-- R121's examples (P4 steps 2 and 3). -/
theorem test_h2d :
    intResult (exec (.h2d (.str text8c108000) .signed) State.reset) = some (-1945075712) ∧
    intResult (exec (.h2d (.str text8c108000) .unsigned) State.reset) = some 2349891584 := by decide

/-- R121: an over-long and an empty hex string. -/
theorem test_h2d_errors :
    errors (exec (.h2d (.overlong 9) .signed) State.reset) = some (2, 6, 0) ∧
    errors (exec (.h2d (.str []) .signed) State.reset) = some (2, 4, 0) := by decide

/-- R122's example (P4 step 1). -/
theorem test_d2h :
    hexResult (exec (.d2h (-1945075712) 8) State.reset) =
      some (8, [0x38, 0x63, 0x31, 0x30, 0x38, 0x30, 0x30, 0x30]) := by decide

/-- R122: 2^32 does not fit eight digits; nine digits and none. -/
theorem test_d2h_errors :
    errors (exec (.d2h 4294967296 8) State.reset) = some (1, 0, 0) ∧
    errors (exec (.d2h 0 9) State.reset) = some (2, 6, 0) ∧ errors (exec (.d2h 0 0) State.reset) = some (2, 5, 0) := by decide

/-- R151's example. -/
theorem test_filldR :
    register 6 (exec (.filldR 0 18 19 17 0 32) State.reset) = some (1, 0, 0, 0, [0, 18, 19, 17, 0, 32]) ∧
    fields 6 (exec (.filldR 0 18 19 17 0 32) State.reset) =
      some [(6, 0), (5, 0b10010), (5, 0b10011), (5, 0b10001), (5, 0), (6, 0b100000)] := by decide

/-- V-L2-79, V-L2-82. -/
theorem test_filldR_errors :
    errors (exec (.filldR (-63) (-16) 31 0 0 64) State.reset) = some (1, 0, 5) ∧
    errors (exec (.filldR 64 32 0 0 0 0) State.reset) = some (1, 0, 0) := by decide

/-- V-L2-84. -/
theorem test_filldI :
    register 4 (exec (.filldI 35 0 16 (-32769)) State.reset) = some (1, 1, 0, 0, [35, 0, 16, -32769]) ∧
    fields 4 (exec (.filldI 35 0 16 (-32769)) State.reset) =
      some [(6, 35), (5, 0), (5, 16), (16, 0b0111111111111111)] := by decide

/-- V-L2-86. -/
theorem test_filldI_error : errors (exec (.filldI 0 0 0 (-65536)) State.reset) = some (1, 0, 3) := by decide

/-- V-L2-88. -/
theorem test_filldJ :
    register 2 (exec (.filldJ (-1) (-1)) State.reset) = some (1, 2, 0, 0, [-1, -1]) ∧
    fields 2 (exec (.filldJ (-1) (-1)) State.reset) = some [(6, 0b111111), (26, 0x3ffffff)] := by decide

/-- R153's boundary example (P3 step 1): the register is INVALID. -/
theorem test_filldJ_error :
    errors (exec (.filldJ 2 67108864) State.reset) = some (1, 0, 1) ∧
    (wordAfter (exec (.filldJ 2 67108864) State.reset)).map Prod.fst = some 3 := by decide

/-- V-L2-90. -/
theorem test_fillbR :
    register 6 (exec (.fillbR (.str (List.replicate 6 false)) (.str [true, false, false, true, false])
      (.str [true, false, false, true, true]) (.str [true, false, false, false, true]) (.str (List.replicate 5 true))
      (.str (true :: List.replicate 5 false)) .signed) State.reset) = some (1, 0, 1, 1, [0, 18, 19, 17, -1, 32]) := by decide

/-- V-L2-92: field 1 is the first bad one; V-L2-98: never PORT_WIDTH. -/
theorem test_fillbR_errors :
    errors (exec (.fillbR (.str (List.replicate 6 false)) (.str [true, false, false, true])
      (.str [true, false, false, true, true]) (.str [true, false, false, false, true]) (.str (List.replicate 5 true))
      (.str (true :: List.replicate 4 false)) .unsigned) State.reset) = some (2, 1, 1) ∧
    errors (exec (.fillbR (.overlong 40) (.str []) (.str []) (.str []) (.str []) (.str []) .unsigned) State.reset) =
      some (2, 1, 0) := by decide

/-- V-L2-95 (Unsigned) and V-L2-93 (Signed). -/
theorem test_fillbI :
    register 4 (exec (.fillbI (.str [true, false, false, false, true, true]) (.str (List.replicate 5 false))
      (.str [true, false, false, false, false]) (.str (true :: List.replicate 15 false)) .unsigned) State.reset) =
      some (1, 1, 1, 0, [35, 0, 16, 32768]) ∧
    register 4 (exec (.fillbI (.str [false, false, true, false, false, false]) (.str [false, true, false, false, false])
      (.str [false, true, false, false, true]) (.str (List.replicate 16 true)) .signed) State.reset) =
      some (1, 1, 1, 1, [8, 8, 9, -1]) := ⟨by decide, by decide⟩

/-- V-L2-94. -/
theorem test_fillbI_error :
    errors (exec (.fillbI (.str [false, false, true, false, false, false]) (.str [false, true, false, false, false])
      (.str [false, true, false, false, true]) (.str (List.replicate 15 true)) .signed) State.reset) =
      some (2, 1, 3) := by decide

/-- V-L2-96. -/
theorem test_fillbJ :
    register 2 (exec (.fillbJ (.str [false, false, false, false, true, false]) (.str (List.replicate 26 true)))
      State.reset) = some (1, 2, 1, 0, [2, 67108863]) := by decide

/-- V-L2-97. -/
theorem test_fillbJ_error :
    errors (exec (.fillbJ (.str [false, false, false, true, false]) (.str (List.replicate 26 true))) State.reset) =
      some (2, 1, 0) := by decide

/-- V-L2-105. -/
theorem test_composeR :
    bitsResult (exec .composeR filledR) = some (32, 0x02538fe0) ∧
    hexResult (exec .composeR filledR) = some (8, [0x30, 0x32, 0x35, 0x33, 0x38, 0x66, 0x65, 0x30]) ∧
    wordAfter (exec .composeR filledR) = some (2, 0x02538fe0) := by decide

/-- V-L2-107 (EMPTY), V-L2-109 (format mismatch). -/
theorem test_composeR_errors :
    errors (exec .composeR State.reset) = some (3, 0, 0) ∧ errors (exec .composeR composedJ) = some (3, 0, 0) := by decide

/-- R160's example. -/
theorem test_composeI :
    hexResult (exec .composeI filledI) = some (8, [0x32, 0x31, 0x30, 0x39, 0x66, 0x66, 0x66, 0x66]) := by decide

/-- V-L2-108. -/
theorem test_composeI_error :
    errors (exec .composeI invalidState) = some (3, 0, 0) ∧
    (wordAfter (exec .composeI invalidState)).map Prod.fst = some 3 := by decide

/-- V-L2-110: idempotent. -/
theorem test_composeJ :
    hexResult (exec .composeJ composedJ) = some (8, text0bffffff.map BitVec.toNat) ∧
    wordAfter (exec .composeJ composedJ) = some (2, 0x0bffffff) := by decide

/-- R163's example. -/
theorem test_decodeR :
    register 6 (exec (.decodeR (.str text02538820) .unsigned) State.reset) = some (2, 0, 2, 0, [0, 18, 19, 17, 0, 32]) := by decide

/-- V-L2-111, V-L2-112 and V-L2-114 (the length is checked first). -/
theorem test_decodeR_errors :
    errors (exec (.decodeR (.str text0253882F) .unsigned) State.reset) = some (2, 3, 7) ∧
    errors (exec (.decodeR (.str (text02538820.drop 1)) .unsigned) State.reset) = some (2, 2, 0) ∧
    errors (exec (.decodeR (.str (text0253882F.drop 1)) .unsigned) State.reset) = some (2, 2, 0) := by decide

/-- V-L2-119, V-L2-120. -/
theorem test_decodeI :
    register 4 (exec (.decodeI (.str text8c108000) .signed) State.reset) = some (2, 1, 2, 1, [35, 0, 16, -32768]) ∧
    register 4 (exec (.decodeI (.str text8c108000) .unsigned) State.reset) = some (2, 1, 2, 0, [35, 0, 16, 32768]) :=
  ⟨by decide, by decide⟩

/-- V-L2-122. -/
theorem test_decodeJ :
    register 2 (exec (.decodeJ (.str text0bffffff)) State.reset) = some (2, 2, 2, 0, [2, 67108863]) ∧
    wordAfter (exec (.decodeJ (.str text0bffffff)) State.reset) = some (2, 0x0bffffff) := by decide

/-- V-L2-126 to V-L2-131: the register is unchanged. -/
theorem test_reserved :
    errors (exec .reserved09 filledR) = some (4, 0, 0) ∧ errors (exec .reserved0F filledR) = some (4, 0, 0) ∧
    errors (exec .reserved13 filledR) = some (4, 0, 0) ∧ errors (exec .reserved17 filledR) = some (4, 0, 0) ∧
    errors (exec .reserved1B filledR) = some (4, 0, 0) ∧ errors (exec .reserved1F filledR) = some (4, 0, 0) ∧
    register 6 (exec .reserved1F filledR) = some (1, 0, 1, 1, [0, 18, 19, 17, -1, 32]) :=
  ⟨by decide, by decide, by decide, by decide, by decide, by decide, by decide⟩

/-- R94, R28: what the readback shows of a FILLED I-format value. -/
theorem test_readback_filled :
    filledI.readback.status = 1 ∧ filledI.readback.fmt = some 1 ∧ filledI.readback.src = some 0 ∧
    filledI.readback.dec = [some 8, some 8, some 9, some 0x1ffffffff, none, none] ∧
    filledI.readback.fb = [some ⟨6, 8⟩, some ⟨5, 8⟩, some ⟨5, 9⟩, some ⟨16, 0xffff⟩, none, none] ∧
    filledI.readback.word = none ∧ filledI.readback.hex = none := by decide

/-- R94, R28: what the readback shows of a COMPOSED value (V-L2-106). -/
theorem test_readback_composed :
    composedJ.readback.status = 2 ∧ composedJ.readback.word = some 0x0bffffff ∧
    composedJ.readback.hex = some ⟨8, #v[0x30, 0x62, 0x66, 0x66, 0x66, 0x66, 0x66, 0x66]⟩ := by decide

/-- R58, R236: the step on inputs; R230: reset wins over a request. -/
theorem test_step_inputs :
    errors (step { filledR with inputs := [⟨false, [noise 0x18]⟩] }) = some (0, 0, 0) ∧
    errors (step { filledR with inputs := [⟨true, [noise 0x18]⟩] }) = none ∧
    (wordAfter (step { filledR with inputs := [⟨true, [noise 0x18]⟩] })).map Prod.fst = some 0 ∧
    errors (step (State.reset.withFetchWord 8 0x18)) = some (3, 0, 0) := by decide

/-- R35: names the spec's own source gives. -/
theorem test_register_names :
    registerNumber "T0" = some 8 ∧ registerNumber "T1" = some 9 ∧ registerNumber "S1" = some 17 ∧
    registerNumber "S2" = some 18 ∧ registerNumber "S3" = some 19 ∧ registerNumber "X0" = none := by decide

/-! Witnesses: a state and operands that meet a statement's hypotheses. -/
/-- A request with nothing but its code: what two requests that agree on what a command reads may differ in. -/
def bare (c : Nat) : Request := Request.blank (BitVec.ofNat 5 c)

/-- A string of `n` ones. -/
def onesOf (n : Nat) : BitString := List.replicate n true

theorem overlong_tooLong (n : Nat) : BitsOperandTooLong (.overlong n) := by
  intro s h; cases h

theorem str_tooLong : BitsOperandTooLong (.str (onesOf 33)) := by
  intro s h; cases h; decide

theorem hex_overlong_tooLong (n : Nat) : HexOperandTooLong (.overlong n) := by
  intro s h; cases h

theorem hex_str_tooLong : HexOperandTooLong (.str (List.replicate 9 0x30)) := by
  intro s h; cases h; decide

theorem spells_02538820 : Spells text02538820 [0, 2, 5, 3, 8, 8, 2, 0] := ⟨by decide, by decide⟩

theorem spells_8c108000 : Spells text8c108000 [8, 12, 1, 0, 8, 0, 0, 0] := ⟨by decide, by decide⟩

theorem witness_DecodingUndoesEncoding :
    (Instr.d2b (-4294967296) 63).wf = true ∧ (Instr.d2h 4294967295 0).wf = true ∧
    (Instr.fillbR (.str []) (.str (onesOf 32)) (.overlong 33) (.overlong 63) (.str []) (.str []) .signed).wf = true ∧
    (Instr.h2d (.str text8c108000) .signed).wf = true ∧ (Instr.decodeI (.overlong 9) .unsigned).wf = true ∧
    (Instr.decodeJ (.overlong 15)).wf = true := by decide

theorem witness_EachCommandReadsItsOwnFields :
    (noise 0x00).cmd = 0x00 ∧ (noise 0x01).cmd = 0x01 ∧ (noise 0x02).cmd = 0x02 ∧ (noise 0x03).cmd = 0x03 ∧
    (noise 0x04).cmd = 0x04 ∧ (noise 0x05).cmd = 0x05 ∧ (noise 0x06).cmd = 0x06 ∧ (noise 0x07).cmd = 0x07 ∧
    (noise 0x08).cmd = 0x08 ∧ (noise 0x09).cmd = 0x09 ∧ (noise 0x0A).cmd = 0x0A ∧ (noise 0x0B).cmd = 0x0B ∧
    (noise 0x0C).cmd = 0x0C ∧ (noise 0x0D).cmd = 0x0D ∧ (noise 0x0E).cmd = 0x0E ∧ (noise 0x0F).cmd = 0x0F ∧
    (noise 0x10).cmd = 0x10 ∧ (noise 0x11).cmd = 0x11 ∧ (noise 0x12).cmd = 0x12 ∧ (noise 0x13).cmd = 0x13 ∧
    (noise 0x14).cmd = 0x14 ∧ (noise 0x15).cmd = 0x15 ∧ (noise 0x16).cmd = 0x16 ∧ (noise 0x17).cmd = 0x17 ∧
    (noise 0x18).cmd = 0x18 ∧ (noise 0x19).cmd = 0x19 ∧ (noise 0x1A).cmd = 0x1A ∧ (noise 0x1B).cmd = 0x1B ∧
    (noise 0x1C).cmd = 0x1C ∧ (noise 0x1D).cmd = 0x1D ∧ (noise 0x1E).cmd = 0x1E ∧ (noise 0x1F).cmd = 0x1F := by
  decide

theorem witness_FieldsNotReadAreIgnored_primitives :
    (noise 0x00).cmd = { bare 0x00 with a := (noise 0).a }.cmd ∧ (noise 0x00).cmd.toNat ∈ [0x00, 0x01, 0x06] ∧
    (noise 0x02).cmd = { bare 0x02 with a := (noise 0).a, t := 63, mode := 1 }.cmd ∧ (noise 0x02).cmd.toNat = 0x02 ∧
    (noise 0x03).cmd = { bare 0x03 with v := (noise 0).v, t := 63 }.cmd ∧ (noise 0x03).cmd.toNat = 0x03 ∧
    (noise 0x04).cmd = { bare 0x04 with a := (noise 0).a, mode := 1 }.cmd ∧ (noise 0x04).cmd.toNat = 0x04 ∧
    (noise 0x05).cmd = { bare 0x05 with h := (noise 0).h }.cmd ∧ (noise 0x05).cmd.toNat = 0x05 ∧
    (noise 0x07).cmd = { bare 0x07 with h := (noise 0).h, mode := 1 }.cmd ∧ (noise 0x07).cmd.toNat = 0x07 ∧
    (noise 0x08).cmd = { bare 0x08 with v := (noise 0).v, t := 63 }.cmd ∧ (noise 0x08).cmd.toNat = 0x08 := by decide

theorem witness_FieldsNotReadAreIgnored_fills :
    (noise 0x10).cmd.toNat = 0x10 ∧ (noise 0x10).fd = { bare 0x10 with fd := (noise 0).fd }.fd ∧
    (noise 0x11).cmd.toNat = 0x11 ∧
    (∀ k, (h : k < 4) → (noise 0x11).fd[k] =
      { bare 0x11 with fd := #v[0x1ffffffff, 0x1ffffffff, 0x1ffffffff, 0x1ffffffff, 0, 0] }.fd[k]) ∧
    (noise 0x12).cmd.toNat = 0x12 ∧
    (∀ k, (h : k < 2) → (noise 0x12).fd[k] = { bare 0x12 with fd := #v[0x1ffffffff, 0x1ffffffff, 0, 0, 0, 0] }.fd[k]) ∧
    (noise 0x14).cmd.toNat = 0x14 ∧ (noise 0x14).fbits = { bare 0x14 with fbits := (noise 0).fbits }.fbits ∧
    (noise 0x15).cmd.toNat = 0x15 ∧
    (∀ k, (h : k < 4) → (noise 0x15).fbits[k] =
      { bare 0x15 with fbits := #v[⟨63, 0xffffffff⟩, ⟨63, 0xffffffff⟩, ⟨63, 0xffffffff⟩, ⟨63, 0xffffffff⟩, ⟨0, 0⟩, ⟨0, 0⟩] }.fbits[k]) ∧
    (noise 0x16).cmd.toNat = 0x16 ∧
    (∀ k, (h : k < 2) → (noise 0x16).fbits[k] =
      { bare 0x16 with fbits := #v[⟨63, 0xffffffff⟩, ⟨63, 0xffffffff⟩, ⟨0, 0⟩, ⟨0, 0⟩, ⟨0, 0⟩, ⟨0, 0⟩] }.fbits[k]) := by
  decide

theorem witness_FieldsNotReadAreIgnored_others :
    (noise 0x18).cmd = (bare 0x18).cmd ∧ (noise 0x18).cmd.toNat ∈ [0x18, 0x19, 0x1A] ∧
    (noise 0x1F).cmd = (bare 0x1F).cmd ∧
    (noise 0x1F).cmd.toNat ∈ [0x09, 0x0A, 0x0B, 0x0C, 0x0D, 0x0E, 0x0F, 0x13, 0x17, 0x1B, 0x1F] ∧
    (noise 0x1C).cmd.toNat ∈ [0x1C, 0x1D] ∧ (noise 0x1C).h = { bare 0x1C with h := (noise 0).h, mode := 1 }.h ∧
    (noise 0x1E).cmd.toNat = 0x1E ∧ (noise 0x1E).h = { bare 0x1E with h := (noise 0).h }.h := by decide

theorem witness_BitsAboveTheLengthAreIgnored :
    (∀ j, j < (5 : BitVec 6).toNat → (0xffffffe1 : BitVec 32).getLsbD j = (0x1 : BitVec 32).getLsbD j) ∧
    (∀ j, j < (0 : BitVec 6).toNat → (0xffffffff : BitVec 32).getLsbD j = (0 : BitVec 32).getLsbD j) ∧
    (∀ j, (h : j < 8) → j < (2 : BitVec 4).toNat →
      (#v[0x30, 0x31, 9, 9, 9, 9, 9, 9] : Vector HexChar 8)[j] = (#v[0x30, 0x31, 0, 0, 0, 0, 0, 0] : Vector HexChar 8)[j]) := by
  decide

theorem witness_OperandsStandOnThePorts :
    ((4 : BitVec 6).toNat = [false, true, true, false].length ∧
      ∀ i, (h : i < [false, true, true, false].length) →
        (0xfffffff6 : BitVec 32).getLsbD ([false, true, true, false].length - 1 - i) = [false, true, true, false][i]) ∧
    (0 : BitVec 6).toNat = ([] : BitString).length ∧ 32 < (33 : BitVec 6).toNat ∧
    ((2 : BitVec 4).toNat = ([0x38, 0x63] : List HexChar).length ∧
      ∀ j, (hj : j < 8) → (h : j < ([0x38, 0x63] : List HexChar).length) →
        (#v[0x38, 0x63, 9, 9, 9, 9, 9, 9] : Vector HexChar 8)[j] = ([0x38, 0x63] : List HexChar)[j]) ∧
    8 < (9 : BitVec 4).toNat := by decide

theorem witness_StepPerformsThePresentedCommand :
    { State.reset with inputs := [⟨false, [noise 0x18]⟩] }.inputs = ⟨false, [noise 0x18]⟩ :: [] ∧
    decodeTableWord 8 0x18 = some .composeR := by decide

theorem witness_ResetInputEmptiesTheRegister :
    { filledR with inputs := [⟨true, [noise 0x18]⟩, ⟨false, []⟩] }.inputs = ⟨true, [noise 0x18]⟩ :: [⟨false, []⟩] := by decide

theorem witness_OverlappingRequestsAreRefused :
    { filledR with inputs := [⟨false, [noise 0x18, noise 0x19]⟩] }.inputs =
      ⟨false, noise 0x18 :: noise 0x19 :: []⟩ :: [] := by decide

theorem witness_NothingPresentedChangesNothing :
    filledR.inputs = [] ∧ ∃ rest, { filledR with inputs := [⟨false, []⟩] }.inputs = ⟨false, []⟩ :: rest :=
  ⟨rfl, [], rfl⟩

theorem witness_ReadbackShowsTheDefinedParts :
    State.reset.iv.status = .empty ∧ invalidState.iv.status = .invalid ∧ filledR.iv.status = .filled ∧
    composedJ.iv.status = .composed ∧ 1 < composedJ.iv.fmt.nfields ∧ ¬ 2 < composedJ.iv.fmt.nfields := by decide

theorem witness_OnesFlipsEveryBit :
    ([] : BitString).length ≤ 32 ∧ (onesOf 32).length ≤ 32 ∧ BitsOperandTooLong (.overlong 33) ∧
    BitsOperandTooLong (.str (onesOf 33)) :=
  ⟨by decide, by decide, overlong_tooLong 33, str_tooLong⟩

theorem witness_TwosNegatesAtItsWidth :
    (true :: List.replicate 31 false).length ≤ 32 ∧ ([] : BitString).length ≤ 32 ∧ BitsOperandTooLong (.overlong 63) :=
  ⟨by decide, by decide, overlong_tooLong 63⟩

theorem witness_TwosIsAnInvolution :
    (List.replicate 32 false).length ≤ 32 ∧ (true :: List.replicate 31 false).length ≤ 32 ∧ ([] : BitString).length ≤ 32 := by
  decide

/-- The clauses at their edges: `t` one below the length, equal to it, above it, 0, and over the port. -/
theorem witness_ExtendPadsAndNeverTruncates :
    (onesOf 32).length ≤ 32 ∧ 31 ≤ 32 ∧ 31 < (onesOf 32).length ∧ (onesOf 32).length ≤ 32 ∧
    0 < (onesOf 1).length ∧ ([] : BitString).length ≤ 0 ∧ ([] : BitString).length = 0 ∧ 0 < 32 ∧
    BitsOperandTooLong (.overlong 33) ∧ 32 < 33 :=
  ⟨by decide, by decide, by decide, by decide, by decide, by decide, by decide, by decide, overlong_tooLong 33, by decide⟩

theorem witness_DecimalToBitsIsModularOnItsRange :
    (1 ≤ 1 ∧ (-1 : Int).natAbs < 2 ^ 1) ∧ (32 ≤ 32 ∧ (4294967295 : Int).natAbs < 2 ^ 32) ∧
    2 ^ 1 ≤ (-2 : Int).natAbs ∧ 2 ^ 32 ≤ (-4294967296 : Int).natAbs ∧ 32 < 33 := by decide

theorem witness_BitsToDecimalReadsTheMode :
    1 ≤ (onesOf 1).length ∧ (onesOf 32).length ≤ 32 ∧ BitsOperandTooLong (.overlong 33) :=
  ⟨by decide, by decide, overlong_tooLong 33⟩

theorem witness_HexToBitsExpandsEachDigit :
    (Spells text8c108000 [8, 12, 1, 0, 8, 0, 0, 0] ∧ [8, 12, 1, 0, 8, 0, 0, 0].length ≤ 8) ∧ Spells [] [] ∧
    (text0253882F.length ≤ 8 ∧ 7 < text0253882F.length ∧ digit text0253882F[7] = none ∧
      ∀ i, (hi : i < 7) → digit (text0253882F[i]'(Nat.lt_trans hi (by decide))) ≠ none) ∧
    (([0x47] : List HexChar).length ≤ 8 ∧ digit ([0x47] : List HexChar)[0] = none) ∧
    HexOperandTooLong (.overlong 9) ∧ HexOperandTooLong (.str (List.replicate 9 0x30)) :=
  ⟨⟨spells_8c108000, by decide⟩, ⟨by decide, by decide⟩, by decide, by decide, hex_overlong_tooLong 9, hex_str_tooLong⟩

theorem witness_BitsToHexGivesEachNibble :
    ((onesOf 32).length ≤ 32 ∧ (onesOf 32).length % 4 = 0) ∧ ([] : BitString).length % 4 = 0 ∧
    ((onesOf 31).length ≤ 32 ∧ (onesOf 31).length % 4 ≠ 0) ∧ (onesOf 1).length % 4 ≠ 0 ∧ BitsOperandTooLong (.overlong 36) :=
  ⟨by decide, by decide, by decide, by decide, overlong_tooLong 36⟩

theorem witness_HexToDecimalReadsTheMode :
    (Spells text8c108000 [8, 12, 1, 0, 8, 0, 0, 0] ∧ 1 ≤ [8, 12, 1, 0, 8, 0, 0, 0].length) ∧
    (Spells [0x66] [15] ∧ 1 ≤ [15].length) ∧ HexOperandTooLong (.overlong 15) ∧
    (text0253882F.length ≤ 8 ∧ 7 < text0253882F.length ∧ digit text0253882F[7] = none ∧
      ∀ i, (hi : i < 7) → digit (text0253882F[i]'(Nat.lt_trans hi (by decide))) ≠ none) :=
  ⟨⟨spells_8c108000, by decide⟩, ⟨⟨by decide, by decide⟩, by decide⟩, hex_overlong_tooLong 15, by decide⟩

theorem witness_DecimalToHexGivesExactlyItsDigits :
    (1 ≤ 1 ∧ (-15 : Int).natAbs < 16 ^ 1) ∧ (8 ≤ 8 ∧ (4294967295 : Int).natAbs < 16 ^ 8) ∧
    16 ^ 1 ≤ (16 : Int).natAbs ∧ 16 ^ 8 ≤ (-4294967296 : Int).natAbs ∧ 8 < 9 := by decide

theorem witness_PrimitivesNeitherReadNorWriteTheRegister :
    isPrimitive (.ones (.str [])) = true ∧ isPrimitive (.d2h 0 1) = true ∧ filledR.free = composedJ.free ∧
    filledR.iv ≠ composedJ.iv := by decide

theorem witness_ConversionRoundTrips :
    (-(2 ^ (1 - 1)) ≤ (-1 : Int) ∧ (-1 : Int) ≤ 2 ^ (1 - 1) - 1) ∧ (2147483647 : Int) ≤ 2 ^ (32 - 1) - 1 ∧
    (0 : Int) ≤ 2 ^ 1 - 1 ∧ (4294967295 : Int) ≤ 2 ^ 32 - 1 ∧ decimalToBits (-1) 4 = .ok (onesOf 4) ∧
    Spells text02538820 [0, 2, 5, 3, 8, 8, 2, 0] ∧ (onesOf 32).length % 4 = 0 ∧ (-2147483648 : Int) ≤ 2 ^ 31 - 1 ∧
    (-4294967295 : Int).natAbs ≤ 2 ^ 32 - 1 :=
  ⟨by decide, by decide, by decide, by decide, by rfl, spells_02538820, by decide, by decide, by decide⟩

theorem witness_OutOfRangeValuesComeBackShifted :
    (2 ^ (1 - 1) ≤ (1 : Int) ∧ (1 : Int) ≤ 2 ^ 1 - 1) ∧ (2 ^ (16 - 1) ≤ (40000 : Int) ∧ (40000 : Int) ≤ 2 ^ 16 - 1) ∧
    (-(2 ^ 2 - 1) ≤ (-3 : Int) ∧ (-3 : Int) ≤ -(2 ^ (2 - 1) + 1)) ∧
    (-(2 ^ 16 - 1) ≤ (-32769 : Int) ∧ (-32769 : Int) ≤ -(2 ^ (16 - 1) + 1)) ∧
    (-(2 ^ 1 - 1) ≤ (-1 : Int) ∧ (-1 : Int) < 0) := by decide

theorem witness_IntegerResultsFitThePort :
    bitsToDecimal (.str (onesOf 32)) .unsigned = .ok 4294967295 ∧
    hexToDecimal (.str text8c108000) .signed = .ok (-1945075712) := ⟨by rfl, by rfl⟩

theorem witness_DigitInvertsCharacter :
    9 < 10 ∧ 10 ≤ 10 ∧ 15 < 16 ∧ digit 0x39 = some 9 ∧ digit 0x61 = some 10 ∧ digit 0x66 = some 15 ∧ digit 0x30 = some 0 := by decide

theorem witness_FieldsFillTheWord :
    (onesOf 32).length = 32 ∧ 5 < Fmt.R.nfields ∧ 3 < Fmt.I.nfields ∧ 1 < Fmt.J.nfields := by decide

/-- Values at their largest magnitude in every field; one over it in the last field and in the first. -/
theorem witness_FillDecimalStoresBothViews :
    asFillDecimal (.filldR (-63) 31 (-31) 31 (-31) 63) = some (.R, [-63, 31, -31, 31, -31, 63]) ∧
    (∀ k, k < Fmt.R.nfields → ([-63, 31, -31, 31, -31, 63].getD k 0 : Int).natAbs < 2 ^ Fmt.R.width k) ∧
    (∀ k, k < Fmt.I.nfields → ([63, -31, 31, -65535].getD k 0 : Int).natAbs < 2 ^ Fmt.I.width k) ∧
    asFillDecimal (.filldJ 63 67108864) = some (.J, [63, 67108864]) ∧
    (2 ^ Fmt.J.width 1 ≤ ([63, 67108864].getD 1 0 : Int).natAbs ∧
      ∀ j, j < 1 → ([63, 67108864].getD j 0 : Int).natAbs < 2 ^ Fmt.J.width j) ∧
    2 ^ Fmt.J.width 0 ≤ ([-64, 0].getD 0 0 : Int).natAbs := by decide

theorem witness_FillBitsStoresBothViews :
    asFillBits (.fillbJ (.str (onesOf 6)) (.str (onesOf 26))) =
      some (.J, [onesOf 6, onesOf 26].map BitsOperand.str, .unsigned) ∧
    (∀ k, k < Fmt.J.nfields → ([onesOf 6, onesOf 26].getD k []).length = Fmt.J.width k) ∧
    (∀ k, k < Fmt.I.nfields → ([onesOf 6, onesOf 5, onesOf 5, onesOf 16].getD k []).length = Fmt.I.width k) ∧
    (∀ k, k < Fmt.R.nfields →
      ([onesOf 6, onesOf 5, onesOf 5, onesOf 5, onesOf 5, onesOf 6].getD k []).length = Fmt.R.width k) ∧
    (∀ b, [BitsOperand.str (onesOf 6), .str (onesOf 25)].getD 1 (.overlong 0) = .str b → b.length ≠ Fmt.J.width 1) ∧
    (∀ j, j < 1 → ∃ b, [BitsOperand.str (onesOf 6), .str (onesOf 25)].getD j (.overlong 0) = .str b ∧
      b.length = Fmt.J.width j) ∧
    (∀ b, [BitsOperand.overlong 40, .str []].getD 0 (.overlong 0) = .str b → b.length ≠ Fmt.J.width 0) := by
  refine ⟨by decide, by decide, by decide, by decide, ?_, ?_, ?_⟩
  · intro b h; cases h; decide
  · intro j hj
    obtain rfl : j = 0 := by omega
    exact ⟨onesOf 6, rfl, by decide⟩
  · intro b h; cases h

theorem filledR_consistent : filledR.iv.Consistent := by
  refine ⟨fun _ => ⟨?_, by decide⟩, by decide, fun h => absurd h (by decide)⟩
  intro k hk
  have : k = 0 ∨ k = 1 ∨ k = 2 ∨ k = 3 ∨ k = 4 ∨ k = 5 := by
    have : k < 6 := hk
    omega
  rcases this with rfl | rfl | rfl | rfl | rfl | rfl <;> exact ⟨by decide, fun h => absurd h (by decide), fun _ => rfl⟩

theorem composedJ_consistent : composedJ.iv.Consistent := by
  refine ⟨fun _ => ⟨?_, by decide⟩, by decide, fun _ => by decide⟩
  intro k hk
  have : k = 0 ∨ k = 1 := by
    have : k < 2 := hk
    omega
  rcases this with rfl | rfl <;> exact ⟨by decide, fun h => absurd h (by decide), fun _ => rfl⟩

theorem witness_ComposeJoinsTheFields :
    asCompose .composeR = some .R ∧ filledR.iv.status = .filled ∧ filledR.iv.fmt = .R ∧ filledR.iv.Consistent ∧
    asCompose .composeJ = some .J ∧ composedJ.iv.status = .composed ∧ composedJ.iv.fmt = .J ∧ composedJ.iv.Consistent ∧
    (¬ ((State.reset.iv.status = .filled ∨ State.reset.iv.status = .composed) ∧ State.reset.iv.fmt = .R)) ∧
    (¬ ((composedJ.iv.status = .filled ∨ composedJ.iv.status = .composed) ∧ composedJ.iv.fmt = .I)) :=
  ⟨by decide, by decide, by decide, filledR_consistent, by decide, by decide, by decide, composedJ_consistent, by decide,
    by decide⟩

theorem witness_DecodeHexSlicesTheWord :
    asDecodeHex (.decodeR (.str text02538820) .signed) = some (.R, .str text02538820, .signed) ∧
    (Spells text02538820 [0, 2, 5, 3, 8, 8, 2, 0] ∧ [0, 2, 5, 3, 8, 8, 2, 0].length = 8) ∧
    (∀ cs, HexOperand.str (text02538820.drop 1) = .str cs → cs.length ≠ 8) ∧
    (∀ cs, HexOperand.overlong 9 = .str cs → cs.length ≠ 8) ∧
    (text0253882F.length = 8 ∧ 7 < text0253882F.length ∧ digit text0253882F[7] = none ∧
      ∀ j, (hj : j < 7) → digit (text0253882F[j]'(Nat.lt_trans hj (by decide))) ≠ none) := by
  refine ⟨by decide, ⟨spells_02538820, by decide⟩, ?_, ?_, by decide⟩
  · intro cs h; cases h; decide
  · intro cs h; cases h

theorem witness_ReservedCodesAreIllegal :
    (noise 0x13).cmd.toNat ∈ [0x09, 0x0A, 0x0B, 0x0C, 0x0D, 0x0E, 0x0F, 0x13, 0x17, 0x1B, 0x1F] ∧
    isReserved .reserved09 = true ∧ isReserved .reserved1F = true := by decide

/-- Every field at an end of its range, shamt read Signed at its least value. -/
theorem witness_DecimalValuesSurviveTheWord :
    asFillDecimal (.filldR 63 0 31 0 (-16) 63) = some (.R, [63, 0, 31, 0, -16, 63]) ∧ asCompose .composeR = some .R ∧
    (∀ k, k < Fmt.R.nfields →
      (0 ≤ ([63, 0, 31, 0, -16, 63].getD k 0 : Int) ∧ ([63, 0, 31, 0, -16, 63].getD k 0 : Int) < 2 ^ Fmt.R.width k ∧
        ¬ ((Fmt.R = .R ∧ k = 4 ∨ Fmt.R = .I ∧ k = 3) ∧ Mode.signed = .signed)) ∨
      ((Fmt.R = .R ∧ k = 4 ∨ Fmt.R = .I ∧ k = 3) ∧ Mode.signed = .signed ∧
        -(2 ^ (Fmt.R.width k - 1)) ≤ ([63, 0, 31, 0, -16, 63].getD k 0 : Int) ∧
        ([63, 0, 31, 0, -16, 63].getD k 0 : Int) < 2 ^ (Fmt.R.width k - 1))) ∧
    (∀ p : HexPort, asDecodeHex (.decodeR p.operand .signed) = some (.R, p.operand, .signed)) :=
  ⟨by decide, by decide, by decide, fun _ => rfl⟩

theorem witness_WordsSurviveDecodeAndCompose :
    asDecodeHex (.decodeJ (.str text8c108000)) = some (.J, .str text8c108000, .unsigned) ∧ asCompose .composeJ = some .J ∧
    Spells text8c108000 [8, 12, 1, 0, 8, 0, 0, 0] ∧ [8, 12, 1, 0, 8, 0, 0, 0].length = 8 :=
  ⟨by decide, by decide, spells_8c108000, by decide⟩

theorem witness_BitFieldsSurviveTheWord :
    asFillBits (.fillbI (.str (onesOf 6)) (.str (onesOf 5)) (.str (onesOf 5)) (.str (onesOf 16)) .signed) =
      some (.I, [onesOf 6, onesOf 5, onesOf 5, onesOf 16].map BitsOperand.str, .signed) ∧
    asCompose .composeI = some .I ∧
    (∀ k, k < Fmt.I.nfields → ([onesOf 6, onesOf 5, onesOf 5, onesOf 16].getD k []).length = Fmt.I.width k) ∧
    (∀ p : HexPort, asDecodeHex (.decodeI p.operand .unsigned) = some (.I, p.operand, .unsigned)) :=
  ⟨by decide, by decide, by decide, fun _ => rfl⟩

theorem witness_ModeChangesOneDecimalView :
    asDecodeHex (.decodeI (.str text8c108000) .signed) = some (.I, .str text8c108000, .signed) ∧
    asDecodeHex (.decodeI (.str text8c108000) .unsigned) = some (.I, .str text8c108000, .unsigned) ∧
    Spells text8c108000 [8, 12, 1, 0, 8, 0, 0, 0] ∧ [8, 12, 1, 0, 8, 0, 0, 0].length = 8 ∧
    ¬ (Fmt.I = .R ∧ 2 = 4 ∨ Fmt.I = .I ∧ 2 = 3) :=
  ⟨by decide, by decide, spells_8c108000, by decide, by decide⟩

theorem witness_ErrorsLeaveInvalidOrUnchanged :
    (∃ t r, exec (.filldJ 2 67108864) filledR = .next t ∧ t.resp = some r ∧ r.err ≠ 0 ∧
      startsValue (.filldJ 2 67108864) = true) ∧
    (∃ t r, exec .composeI filledR = .next t ∧ t.resp = some r ∧ r.err ≠ 0 ∧ startsValue .composeI = false) :=
  ⟨⟨_, _, rfl, rfl, by decide, by decide⟩, ⟨_, _, rfl, rfl, by decide, by decide⟩⟩

theorem witness_OnlyFillsDecodesAndComposeTouchTheRegister :
    (∃ t, exec (.d2b 5 4) filledR = .next t ∧ startsValue (.d2b 5 4) = false) ∧
    (∃ t, exec .composeR filledR = .next t ∧ startsValue .composeR = false) :=
  ⟨⟨_, rfl, by decide⟩, ⟨_, rfl, by decide⟩⟩

theorem witness_ResponseFieldsStayInRange :
    (∃ t r, exec (.filldR 0 0 0 0 0 64) filledR = .next t ∧ t.resp = some r ∧ r.info ≠ 0) ∧
    (∃ t r, exec (.fillbJ (.str (onesOf 6)) (.str [])) filledR = .next t ∧ t.resp = some r ∧ r.info ≠ 0) ∧
    (∃ t r, exec (.h2b (.str text0253882F)) filledR = .next t ∧ t.resp = some r ∧ r.info ≠ 0) :=
  ⟨⟨_, _, rfl, rfl, by decide⟩, ⟨_, _, rfl, rfl, by decide⟩, ⟨_, _, rfl, rfl, by decide⟩⟩

theorem witness_PortWidthIsReportedExactly :
    (∃ t r, exec (.bext (.str []) 33 .zero) filledR = .next t ∧ t.resp = some r ∧ PortTooNarrow (.bext (.str []) 33 .zero)) ∧
    (∃ t r, exec (.d2h 0 8) filledR = .next t ∧ t.resp = some r ∧ ¬ PortTooNarrow (.d2h 0 8)) :=
  ⟨⟨_, _, rfl, rfl, .inr (by decide)⟩, ⟨_, _, rfl, rfl, by simp [PortTooNarrow]⟩⟩

theorem witness_FormatCodesAgree :
    (∃ t r, exec (.filldJ 2 67108863) filledR = .next t ∧ t.resp = some r ∧ r.err = 0 ∧
      startsValue (.filldJ 2 67108863) = true) ∧
    (∃ t r, exec .composeR filledR = .next t ∧ t.resp = some r ∧ r.err = 0 ∧ (asCompose .composeR).isSome) :=
  ⟨⟨_, _, rfl, rfl, by decide, by decide⟩, ⟨_, _, rfl, rfl, by decide, by decide⟩⟩

theorem witness_StepUsesUpItsInputs :
    ∃ t, step { filledR with inputs := [⟨false, [noise 0x18]⟩, ⟨true, []⟩] } = .next t := ⟨_, rfl⟩

theorem witness_StepKeepsTheRegisterConsistent :
    { filledR with inputs := [⟨false, [noise 0x18]⟩] }.Inv ∧
    ∃ t, step { filledR with inputs := [⟨false, [noise 0x18]⟩] } = .next t := by
  refine ⟨⟨filledR_consistent, ?_⟩, ⟨_, rfl⟩⟩
  intro k hk
  have : k = 0 ∨ k = 1 ∨ k = 2 ∨ k = 3 ∨ k = 4 ∨ k = 5 := by omega
  rcases this with rfl | rfl | rfl | rfl | rfl | rfl <;> decide

theorem witness_ComposedWordSlicesAreTheFields :
    composedJ.iv.Consistent ∧ composedJ.iv.status = .composed ∧ 1 < composedJ.iv.fmt.nfields :=
  ⟨composedJ_consistent, by decide, by decide⟩

theorem witness_ComposeAfterAFailedFillIsAStateError :
    startsValue (.filldJ 2 67108864) = true ∧ (asCompose .composeJ).isSome ∧
    ∃ t r, exec (.filldJ 2 67108864) State.reset = .next t ∧ t.resp = some r ∧ r.err ≠ 0 :=
  ⟨by decide, by decide, _, _, rfl, rfl, by decide⟩

theorem witness_PresentedCommandsRunInOrder :
    ∀ i ∈ encodeI 35 0 16 (-32768), i.wf = true := by decide

theorem witness_BlocksShareNoState :
    ([filledR, invalidState] : System)[1]? = some invalidState ∧ ([composedJ, invalidState] : System)[1]? = some invalidState ∧
    ∃ t, System.stepBlock 1 [filledR, invalidState] = .next t :=
  ⟨rfl, rfl, _, rfl⟩

end Sys2Proof.Tests
end

section
/-! SUPPORT. What the ports' operands, the two conversions to integers and the layouts' offsets are, one lemma per case
(30_encoding.md rules R72, R81, R84; 40_bit_primitives.md rules R117, R121). -/

namespace Sys2Proof

/-! Operands on the ports (R81, R84). -/

theorem BitsPort.operand_of_le {p : BitsPort} (h : p.len.toNat ≤ 32) :
    p.operand = .str (bitsN p.len.toNat p.data.toNat) := if_pos h

theorem BitsPort.operand_of_gt {p : BitsPort} (h : 32 < p.len.toNat) : p.operand = .overlong p.len.toNat :=
  if_neg (Nat.not_le.mpr h)

theorem HexPort.operand_of_le {p : HexPort} (h : p.len.toNat ≤ 8) :
    p.operand = .str (p.ch.toList.take p.len.toNat) := if_pos h

theorem HexPort.operand_of_gt {p : HexPort} (h : 8 < p.len.toNat) : p.operand = .overlong p.len.toNat :=
  if_neg (Nat.not_le.mpr h)

/-- Bit `i` of `bits_n(k)`, counted from the most significant, is binary digit `n-1-i` of `k` (R13, R14). -/
theorem bitsN_getElem (n k : Nat) {i : Nat} (h : i < (bitsN n k).length) :
    (bitsN n k)[i] = k.testBit (n - 1 - i) := by
  induction n generalizing i with
  | zero => simp at h
  | succ n ih =>
    cases i with
    | zero => rfl
    | succ i =>
      have e : n + 1 - 1 - (i + 1) = n - 1 - i := by omega
      simpa only [bitsN, List.getElem_cons_succ, e] using ih (by simpa using h)

/-- A string is read off data bits that hold it with its first bit the highest (R81). -/
theorem bitsN_eq_of_dataBits {x : BitVec 32} {b : BitString}
    (h : ∀ i, (hi : i < b.length) → x.getLsbD (b.length - 1 - i) = b[i]) : bitsN b.length x.toNat = b :=
  List.ext_getElem (by simp) fun i _ hi => by rw [bitsN_getElem]; exact h i hi

/-- A string is read off the slots that hold it, its first character in slot 0 (R84). -/
theorem take_slots_eq {ch : Vector HexChar 8} {cs : List HexChar} (h8 : cs.length ≤ 8)
    (h : ∀ j, (hj : j < 8) → (hc : j < cs.length) → ch[j] = cs[j]) : ch.toList.take cs.length = cs :=
  List.ext_getElem (by simpa using h8) fun j _ hc => by
    simpa using h j (by omega) hc

/-! Character codes (R84). -/

/-- The code of a digit below 10 (R84; the code value PRESUMED, log entry 11). -/
theorem chr_toNat_of_lt {d : Nat} (h : d < 10) : (chr d).toNat = 0x30 + d := by
  rw [chr, if_pos h, BitVec.toNat_ofNat, Nat.mod_eq_of_lt (by omega)]

/-- The code of a digit from 10 to 15 (R84; the code value PRESUMED, log entry 11). -/
theorem chr_toNat_of_ge {d : Nat} (h : 10 ≤ d) (h16 : d < 16) : (chr d).toNat = 0x61 + (d - 10) := by
  rw [chr, if_neg (Nat.not_lt.mpr h), BitVec.toNat_ofNat, Nat.mod_eq_of_lt (by omega)]

/-! Layouts (R72). -/

theorem Fmt.offset_succ {F : Fmt} {k : Nat} (h : k < F.nfields) : F.offset (k + 1) = F.offset k + F.width k := by
  have hk : k < F.widths.length := by simpa using h
  simp only [Fmt.offset, Fmt.width, List.sum_take_succ _ _ hk, List.getD_eq_getElem _ _ hk]

theorem Fmt.offset_nfields (F : Fmt) : F.offset F.nfields = 32 := by
  rw [Fmt.offset, ← F.widths_length, List.take_length, F.widths_sum]

namespace Machine

/-! Conversions to integers (R117, R121). -/

/-- What it means that B2D succeeds. -/
theorem bitsToDecimal_eq_ok {a : BitsOperand} {m : Mode} {v : Int} (h : bitsToDecimal a m = .ok v) :
    ∃ s, a = .str s ∧ 0 < s.length ∧ s.length ≤ 32 ∧ v = valueOf s m := by
  unfold bitsToDecimal at h
  split at h
  · cases h
  next s hs =>
    obtain ⟨rfl, h32⟩ := readBits_ok hs
    split at h
    · cases h
    next h0 =>
      cases h
      exact ⟨s, rfl, Nat.pos_of_ne_zero h0, h32, rfl⟩

/-- What it means that H2D succeeds: the digits expand, and B2D of their bits succeeds. -/
theorem hexToDecimal_eq_ok {h : HexOperand} {m : Mode} {v : Int} (hv : hexToDecimal h m = .ok v) :
    ∃ s, hexToBits h = .ok s ∧ bitsToDecimal (.str s) m = .ok v := by
  unfold hexToDecimal at hv
  split at hv
  · cases hv
  next s hs => exact ⟨s, hs, hv⟩

/-- A result of B2D is one the 33-bit port carries (R10). -/
theorem bitsToDecimal_bounds {a : BitsOperand} {m : Mode} {v : Int} (h : bitsToDecimal a m = .ok v) :
    -(2 ^ 31) ≤ v ∧ v ≤ 2 ^ 32 - 1 := by
  obtain ⟨s, -, h0, h32, rfl⟩ := bitsToDecimal_eq_ok h
  obtain ⟨hlo, hhi⟩ := valueOf_bounds h0 h32 m
  exact ⟨hlo, Int.le_sub_one_of_lt hhi⟩

end Machine

end Sys2Proof
end

section
/-! PROOFS. The statements of 00_scope.md. -/

namespace Sys2Proof

open Machine

/-- Settles O25: an integer result is the value of 1 to 32 bits, and H2D's is B2D's of the expanded digits. -/
theorem integerResultsFitThePort : Obligations.IntegerResultsFitThePort := by
  refine ⟨fun _ _ _ => bitsToDecimal_bounds, fun _ _ _ hv => ?_⟩
  obtain ⟨s, -, hs⟩ := hexToDecimal_eq_ok hv
  exact bitsToDecimal_bounds hs

/-- Settles O27: the tables by value, then the slices of any word string, which join to it and stand at their offsets. -/
theorem fieldsFillTheWord : Obligations.FieldsFillTheWord := by
  refine ⟨⟨rfl, rfl, rfl⟩, ⟨rfl, rfl, rfl⟩, ⟨rfl, rfl, rfl⟩, ⟨rfl, rfl, rfl⟩, ⟨rfl, rfl, rfl⟩, rfl, fun F u hu => ?_⟩
  exact ⟨F.slices_flatten hu, rfl, F.offset_nfields,
    fun k hk => ⟨Fmt.offset_succ hk, Fmt.slice_length hk hu, Fmt.nat_slice hk hu⟩⟩

/-- Settles O51: a length the port holds names the string its low bits or slots spell; a longer one names none. -/
theorem operandsStandOnThePorts : Obligations.OperandsStandOnThePorts := by
  refine ⟨fun p b hl h32 hbits => ?_, fun _ => BitsPort.operand_of_gt, fun p cs hl h8 hslots => ?_,
    fun _ => HexPort.operand_of_gt⟩
  · rw [BitsPort.operand_of_le (hl ▸ h32), hl, bitsN_eq_of_dataBits hbits]
  · rw [HexPort.operand_of_le (hl ▸ h8), hl, take_slots_eq h8 hslots]

/-- Settles O26: the two ranges of character codes, and `digit` and `chr` as inverses. -/
theorem digitInvertsCharacter : Obligations.DigitInvertsCharacter :=
  ⟨fun _ => chr_toNat_of_lt, fun _ => chr_toNat_of_ge, fun _ => digit_chr, fun _ _ => chr_of_digit⟩

end Sys2Proof
end

section
/-! SUPPORT. Which registers are consistent and fit their slots (10_state.md rules R21 to R27), one lemma per way a
register is written; what a step and a command that starts no value can do to it; and what the readback port shows of it
(R28, R94). -/

namespace Sys2Proof

/-- The stored mode reads every field as the caller's mode does: J, which stores 0, has no signed-capable field (R76). -/
@[simp] theorem Fmt.fieldMode_storedMode (F : Fmt) (m : Mode) (k : Nat) :
    F.fieldMode (F.storedMode m) k = F.fieldMode m k := by
  cases F <;> rfl

/-- The stored mode is 0 in J, where it has no meaning (R24). -/
theorem Fmt.storedMode_of_J {F : Fmt} (m : Mode) (h : F = .J) : F.storedMode m = .unsigned := by subst h; rfl

namespace Machine

/-! Slots (R21). -/

/-- Whatever stands on an integer port is a 33-bit integer (R10). -/
theorem intPort_toInt_bounds (p : IntPort) : -(2 ^ 32) ≤ p.toInt ∧ p.toInt < 2 ^ 32 :=
  ⟨p.le_toInt, p.toInt_lt⟩

/-- The value of a field is a 33-bit integer (R10). -/
theorem valueOf_fits {F : Fmt} {k : Nat} (hk : k < F.nfields) {b : BitString} (hb : b.length = F.width k) (m : Mode) :
    -(2 ^ 32) ≤ valueOf b m ∧ valueOf b m < 2 ^ 32 := by
  obtain ⟨h5, h26⟩ := Fmt.width_pos hk
  obtain ⟨hlo, hhi⟩ := valueOf_bounds (a := b) (by omega) (by omega) m
  exact ⟨by omega, hhi⟩

/-- Slots filled with live fields fit the register when each live field does: the free values above them always fit. -/
theorem fitsSlots_of_live {v : IV} {n : Nat} {ds : List Int} {bs : List BitString} (hdec : v.dec = decSlots n ds)
    (hfb : v.fb = fbSlots n bs) (hds : ∀ k, k < ds.length → -(2 ^ 32) ≤ ds.getD k 0 ∧ ds.getD k 0 < 2 ^ 32)
    (hbs : ∀ k, k < bs.length → (bs.getD k []).length ≤ slotWidth k) : v.FitsSlots := by
  intro k hk
  constructor
  · rw [IV.decAt, hdec]
    by_cases hlive : k < ds.length
    · rw [decSlots_live n hlive hk]
      exact hds k hlive
    · rw [decSlots_getD n ds hk, List.getD_eq_default _ _ (Nat.not_lt.mp hlive)]
      exact intPort_toInt_bounds _
  · rw [IV.fbAt, hfb]
    by_cases hlive : k < bs.length
    · rw [fbSlots_live n hlive hk]
      exact hbs k hlive
    · rw [fbSlots_getD n bs hk, List.getD_eq_default _ _ (Nat.not_lt.mp hlive)]
      exact List.length_take_le _ _

theorem undefinedBut_fitsSlots (st : Status) (n : Nat) : (IV.undefinedBut st n).FitsSlots :=
  fitsSlots_of_live (n := n) (ds := []) (bs := []) rfl rfl (by simp) (by simp)

theorem ofDecimal_fitsSlots (n : Nat) {F : Fmt} {d : List Int} {b : List BitString} (hd : d.length = F.nfields)
    (hb : b.length = F.nfields)
    (hdb : ∀ k, k < F.nfields → decimalToBits (d.getD k 0) (F.width k) = .ok (b.getD k [])) :
    (IV.ofDecimal n F d b).FitsSlots := by
  refine fitsSlots_of_live rfl rfl (fun k hk => ?_) (fun k hk => ?_)
  · obtain ⟨-, h32, habs, -, -⟩ := decimalToBits_eq_ok (hdb k (hd ▸ hk))
    have hpow : 2 ^ F.width k ≤ 2 ^ 32 := Nat.pow_le_pow_right (by decide) h32
    omega
  · obtain ⟨-, -, -, hlen, -⟩ := decimalToBits_eq_ok (hdb k (hb ▸ hk))
    exact hlen ▸ Fmt.width_le_slot (hb ▸ hk)

/-- Slots filled with fields of their widths, and with the values of those fields, fit the register. -/
theorem fitsSlots_of_fields {v : IV} {n : Nat} {F : Fmt} {m : Mode} {b : List BitString}
    (hdec : v.dec = decSlots n (fieldValues F m 0 b)) (hfb : v.fb = fbSlots n b) (hb : b.length = F.nfields)
    (hw : ∀ k, k < F.nfields → (b.getD k []).length = F.width k) : v.FitsSlots := by
  refine fitsSlots_of_live hdec hfb (fun k hk => ?_) (fun k hk => ?_)
  · rw [fieldValues_length] at hk
    rw [fieldValues_getD F m 0 hk]
    exact valueOf_fits (hb ▸ hk) (hw k (hb ▸ hk)) _
  · exact hw k (hb ▸ hk) ▸ Fmt.width_le_slot (hb ▸ hk)

theorem ofBits_fitsSlots (n : Nat) {F : Fmt} {b : List BitString} (m : Mode) (hb : b.length = F.nfields)
    (hw : ∀ k, k < F.nfields → (b.getD k []).length = F.width k) : (IV.ofBits n F b m).FitsSlots :=
  fitsSlots_of_fields rfl rfl hb hw

theorem ofWord_fitsSlots (n : Nat) (F : Fmt) {u : BitString} (m : Mode) (hu : u.length = 32) :
    (IV.ofWord n F u m).FitsSlots :=
  fitsSlots_of_fields rfl rfl (F.slices_length u) fun k hk => by rw [Fmt.slices_getD hk, Fmt.slice_length hk hu]

/-- COMPOSE touches no slot (R29). -/
theorem compose_fitsSlots {v : IV} (h : v.FitsSlots) : v.compose.FitsSlots := h

/-! Views (R24 to R27). -/

/-- Nothing is asked of an EMPTY or INVALID register (R27). -/
theorem consistent_of_no_value {v : IV} (h : v.status = .empty ∨ v.status = .invalid) : v.Consistent := by
  rcases h with h | h <;> simp [IV.Consistent, h]

/-- A field of its width whose decimal view is its value in the mode it is read in is consistent, in a register made from
bits (R25). -/
theorem fieldConsistent_of_value {v : IV} {k : Nat} (hk : k < v.fmt.nfields) (hsrc : v.src ≠ .dec)
    (hw : (v.fbAt k).length = v.fmt.width k) (hval : v.decAt k = valueOf (v.fbAt k) (v.fmt.fieldMode v.mode k)) :
    v.FieldConsistent k := by
  obtain ⟨h5, h26⟩ := Fmt.width_pos hk
  exact ⟨hw, fun h => absurd h hsrc, fun _ => by rw [hval]; exact bitsToDecimal_ok (by omega) (by omega) _⟩

theorem ofDecimal_consistent (n : Nat) {F : Fmt} {d : List Int} {b : List BitString} (hd : d.length = F.nfields)
    (hb : b.length = F.nfields)
    (hdb : ∀ k, k < F.nfields → decimalToBits (d.getD k 0) (F.width k) = .ok (b.getD k [])) :
    (IV.ofDecimal n F d b).Consistent := by
  refine ⟨fun _ => ⟨fun k hk => ?_, fun _ => rfl⟩, fun _ => by simp, fun h => by simp at h⟩
  have hk : k < F.nfields := hk
  obtain ⟨-, -, -, hlen, -⟩ := decimalToBits_eq_ok (hdb k hk)
  simp only [IV.FieldConsistent, ofDecimal_fbAt n d hb hk, ofDecimal_decAt n b hd hk, ofDecimal_fmt, ofDecimal_src]
  exact ⟨hlen, fun _ => hdb k hk, fun h => absurd rfl h⟩

theorem ofBits_consistent (n : Nat) {F : Fmt} {b : List BitString} (m : Mode) (hb : b.length = F.nfields)
    (hw : ∀ k, k < F.nfields → (b.getD k []).length = F.width k) : (IV.ofBits n F b m).Consistent := by
  refine ⟨fun _ => ⟨fun k hk => ?_, fun h => ?_⟩, fun _ => by simp, fun h => by simp at h⟩
  · have hk : k < F.nfields := hk
    refine fieldConsistent_of_value hk (by simp) ?_ ?_
    · rw [ofBits_fbAt n m hb hk]; exact hw k hk
    · simp [ofBits_decAt n m hb hk, ofBits_fbAt n m hb hk]
  · exact Fmt.storedMode_of_J m (h.resolve_left (by simp))

theorem ofWord_consistent (n : Nat) (F : Fmt) {u : BitString} (m : Mode) (hu : u.length = 32) :
    (IV.ofWord n F u m).Consistent := by
  refine ⟨fun _ => ⟨fun k hk => ?_, fun h => ?_⟩, fun h => by simp at h, fun _ => ?_⟩
  · have hk : k < F.nfields := hk
    refine fieldConsistent_of_value hk (by simp) ?_ ?_
    · rw [ofWord_fbAt n u m hk]; exact Fmt.slice_length hk hu
    · simp [ofWord_decAt n u m hk, ofWord_fbAt n u m hk]
  · exact Fmt.storedMode_of_J m (h.resolve_left (by simp))
  · rw [ofWord_liveFb, F.slices_flatten hu, ofWord_word, wordBits_wordOf hu]

/-- COMPOSE keeps the views, and the word it writes is the fields in layout order (R26, R158). -/
theorem compose_consistent {v : IV} (h : v.Consistent) (hs : v.status = .filled ∨ v.status = .composed) :
    v.compose.Consistent := by
  have h32 : v.liveFb.flatten.length = 32 :=
    (slices_flatten_fields v.fmt (liveFb_length v) fun k hk => liveFb_widths h hs hk).1
  exact ⟨fun _ => h.1 hs, fun hf => by simp at hf, fun _ => wordBits_wordOf h32⟩

/-! The invariant over commands and steps. -/

theorem reset_inv : State.reset.Inv := by
  refine ⟨consistent_of_no_value (.inl rfl), fun k hk => ?_⟩
  interval_cases k <;> decide

/-- Reset keeps the invariant: an EMPTY register asks nothing, and its free values fit (R230). -/
theorem takeReset_inv (s : State) : s.takeReset.Inv :=
  ⟨consistent_of_no_value (.inl rfl), undefinedBut_fitsSlots _ _⟩

/-- Taking an error keeps the invariant, whether the register is kept or becomes INVALID (R208). -/
theorem takeError_inv {s : State} (h : s.Inv) (e : CmdError) (b : Bool) : (s.takeError e b).Inv := by
  cases b with
  | false => exact h
  | true => exact ⟨consistent_of_no_value (.inr rfl), undefinedBut_fitsSlots _ _⟩

/-- Every command keeps the invariant. -/
theorem exec_keeps_inv {i : Instr} {s t : State} (h : s.Inv) (he : exec i s = .next t) : t.Inv := by
  rcases exec_cases i s with ⟨r, hx, -, -⟩ | ⟨F, d, b, -, hd, hb, hdb, hx⟩ | ⟨F, b, m, -, hb, hw, hx⟩ |
      ⟨F, cs, ds, m, -, -, h8, hx⟩ | ⟨r, -, hs, hx, -⟩ | ⟨e, hx⟩ <;>
    cases hx.symm.trans he
  · exact h
  · exact ⟨ofDecimal_consistent _ hd hb hdb, ofDecimal_fitsSlots _ hd hb hdb⟩
  · exact ⟨ofBits_consistent _ m hb hw, ofBits_fitsSlots _ m hb hw⟩
  · have h32 : (ds.flatMap (bitsN 4)).length = 32 := by rw [length_flatMap_bitsN, h8]
    exact ⟨ofWord_consistent _ F m h32, ofWord_fitsSlots _ F m h32⟩
  · obtain ⟨hcons, hfits⟩ := h
    exact ⟨compose_consistent hcons hs, compose_fitsSlots hfits⟩
  · exact takeError_inv h e _

/-- Everything a step that answers a next state can do: nothing, a reset, or one command. -/
theorem step_next_cases {s t : State} (h : step s = .next t) :
    t = s.consume.idle ∨ t = s.consume.takeReset ∨ ∃ i, exec i s.consume = .next t := by
  unfold step at h
  split at h
  · cases h; exact .inl rfl
  · cases h; exact .inr (.inl rfl)
  · exact .inr (.inr ⟨_, h⟩)
  · cases h

/-! Which commands start a value (R29). -/

theorem startsValue_of_fillDecimal {i : Instr} {x : Fmt × List Int} (h : asFillDecimal i = some x) :
    startsValue i = true := by simp [startsValue, h]

theorem startsValue_of_fillBits {i : Instr} {x : Fmt × List BitsOperand × Mode} (h : asFillBits i = some x) :
    startsValue i = true := by simp [startsValue, h]

theorem startsValue_of_decodeHex {i : Instr} {x : Fmt × HexOperand × Mode} (h : asDecodeHex i = some x) :
    startsValue i = true := by simp [startsValue, h]

/-- What a command that starts no value leaves: the register kept, or, of a COMPOSE, the composed register. -/
theorem exec_iv_of_not_startsValue {i : Instr} {s t : State} (he : exec i s = .next t) (hs : startsValue i = false) :
    t.iv = s.iv ∨ (asCompose i = some s.iv.fmt ∧ t.iv = s.iv.compose) := by
  rcases exec_cases i s with ⟨r, hx, -, -⟩ | ⟨F, d, b, hi, -⟩ | ⟨F, b, m, hi, -⟩ | ⟨F, cs, ds, m, hi, -⟩ |
      ⟨r, hi, -, hx, -⟩ | ⟨e, hx⟩
  · cases hx.symm.trans he; exact .inl rfl
  · rw [startsValue_of_fillDecimal hi] at hs; cases hs
  · rw [startsValue_of_fillBits hi] at hs; cases hs
  · rw [startsValue_of_decodeHex hi] at hs; cases hs
  · cases hx.symm.trans he; exact .inr ⟨hi, rfl⟩
  · rw [hs] at hx; cases hx.symm.trans he; exact .inl rfl

/-! The readback port (R28, R94). -/

@[simp] theorem definedIf_true {α : Type} (x : α) : definedIf true x = some x := rfl
@[simp] theorem definedIf_false {α : Type} (x : α) : definedIf false x = none := rfl

theorem fieldsDefined_of_value {v : IV} (h : v.status = .filled ∨ v.status = .composed) : v.fieldsDefined = true :=
  decide_eq_true h

theorem fieldsDefined_of_no_value {v : IV} (h : v.status = .empty ∨ v.status = .invalid) : v.fieldsDefined = false := by
  rcases h with h | h <;> simp [IV.fieldsDefined, h]

theorem wordDefined_of_ne {v : IV} (h : v.status ≠ .composed) : v.wordDefined = false := decide_eq_false h

theorem ifLive_of_no_value {α : Type} {v : IV} (h : v.status = .empty ∨ v.status = .invalid) (k : Nat) (x : α) :
    v.ifLive k x = none := by simp [IV.ifLive, fieldsDefined_of_no_value h]

theorem ifLive_of_value {α : Type} {v : IV} (h : v.status = .filled ∨ v.status = .composed) (k : Nat) (x : α) :
    v.ifLive k x = if k < v.fmt.nfields then some x else none := by
  simp [IV.ifLive, definedIf, fieldsDefined_of_value h]

/-- Of an EMPTY or INVALID register the port shows the status and no other part. -/
theorem readback_of_no_value {s : State} (h : s.iv.status = .empty ∨ s.iv.status = .invalid) :
    s.readback = { status := s.iv.status.code, fmt := none, src := none, mode := none, dec := List.replicate 6 none,
                   fb := List.replicate 6 none, word := none, hex := none } := by
  have hw : s.iv.wordDefined = false := wordDefined_of_ne (by rcases h with h | h <;> simp [h])
  simp [State.readback, fieldsDefined_of_no_value h, hw, ifLive_of_no_value h]

@[simp] theorem readback_status (s : State) : s.readback.status = s.iv.status.code := rfl

/-- Slot `k` of the decimal view, as the port shows it. -/
theorem readback_dec_getElem (s : State) {k : Nat} (hk : k < 6) :
    s.readback.dec[k]? = some (s.iv.ifLive k (IntPort.ofInt (s.iv.decAt k))) := by
  simp [State.readback, hk]

/-- Slot `k` of the bit-string view, as the port shows it. -/
theorem readback_fb_getElem (s : State) {k : Nat} (hk : k < 6) :
    s.readback.fb[k]? = some (s.iv.ifLive k (BitsPort.ofString (s.iv.fbAt k))) := by
  simp [State.readback, hk]

/-- Of a FILLED or COMPOSED register the port shows the format, source and mode. -/
theorem readback_tags_of_value {s : State} (h : s.iv.status = .filled ∨ s.iv.status = .composed) :
    s.readback.fmt = some s.iv.fmt.code ∧ s.readback.src = some s.iv.src.code ∧
    s.readback.mode = some s.iv.mode.bit := by
  simp [State.readback, fieldsDefined_of_value h]

/-- The word and its hex rendering are shown of no register but a COMPOSED one. -/
theorem readback_word_of_ne {s : State} (h : s.iv.status ≠ .composed) :
    s.readback.word = none ∧ s.readback.hex = none := by
  simp [State.readback, wordDefined_of_ne h]

theorem readback_word_of_composed {s : State} (h : s.iv.status = .composed) :
    s.readback.word = some s.iv.word ∧ s.readback.hex = some (HexPort.ofString s.iv.hexview) := by
  simp [State.readback, IV.wordDefined, h]

/-! The hex view (R26). -/

theorem hexview_spells_word (v : IV) :
    ∃ ds, Spells v.hexview ds ∧ ds.length = 8 ∧ ds.flatMap (bitsN 4) = wordBits v.word := by
  simpa [IV.hexview] using hexChars_spells (s := wordBits v.word) (by simp)

end Machine

end Sys2Proof
end

section
/-! PROOFS. The statements of 10_state.md. -/

namespace Sys2Proof

open Machine

/-- Settles O45: a step does nothing, takes a reset or performs one command, and each keeps the invariant. -/
theorem stepKeepsTheRegisterConsistent : Obligations.StepKeepsTheRegisterConsistent := by
  intro s t h hstep
  rcases step_next_cases hstep with rfl | rfl | ⟨i, he⟩
  · exact h
  · exact takeReset_inv _
  · have hconsume : s.consume.Inv := h
    exact exec_keeps_inv hconsume he

/-- Settles O11, status by status. -/
theorem readbackShowsTheDefinedParts : Obligations.ReadbackShowsTheDefinedParts := by
  refine fun s => ⟨?_, fun h => ?_, fun h => ?_, fun h => ?_, fun h => ?_⟩
  · rw [readback_status]
    cases s.iv.status <;> rfl
  · rw [readback_of_no_value h]
    exact ⟨rfl, rfl, rfl, rfl, rfl, rfl, rfl⟩
  · obtain ⟨hfmt, hsrc, hmode⟩ := readback_tags_of_value h
    refine ⟨?_, ?_, ?_, fun k hk => ⟨?_, ?_⟩⟩
    · rw [hfmt]; cases s.iv.fmt <;> rfl
    · rw [hsrc]; cases s.iv.src <;> rfl
    · rw [hmode]; cases s.iv.mode <;> rfl
    · rw [readback_dec_getElem s hk, ifLive_of_value h]
    · rw [readback_fb_getElem s hk, ifLive_of_value h]
  · exact readback_word_of_ne (by simp [h])
  · obtain ⟨hword, hhex⟩ := readback_word_of_composed h
    exact ⟨hword, _, hhex, hexview_carries s.iv⟩

/-- Settles O39: a command that starts no value keeps the register or is a COMPOSE that leaves the composed one. -/
theorem onlyFillsDecodesAndComposeTouchTheRegister : Obligations.OnlyFillsDecodesAndComposeTouchTheRegister := by
  intro i s t he hs
  rcases exec_iv_of_not_startsValue he hs with hkeep | ⟨hi, hcomp⟩
  · exact .inl hkeep
  · exact .inr ⟨by rw [hi]; rfl, by rw [hcomp]; rfl⟩

/-- Settles O47: the digits of the hex view are the word's nibbles. -/
theorem hexviewIsEightDigitsOfTheWord : Obligations.HexviewIsEightDigitsOfTheWord := by
  intro v
  obtain ⟨ds, hspells, h8, hbits⟩ := hexview_spells_word v
  have h16 : ∀ d ∈ ds, d < 16 := hspells.1
  refine ⟨ds, hspells, h8, ?_, ?_⟩
  · rw [← nat_flatMap h16, hbits, nat_wordBits]
  · rw [hexToBits_ok hspells h8.le, hbits]

/-- Settles O10: the reset register is EMPTY, and of an EMPTY register the port shows the status alone. -/
theorem resetStateShowsOnlyEmpty : Obligations.ResetStateShowsOnlyEmpty :=
  ⟨rfl, rfl, rfl, readback_of_no_value (.inl rfl)⟩

/-- Settles O44: an EMPTY register asks nothing of its views, and the reset slots fit. -/
theorem consistentAtReset : Obligations.ConsistentAtReset := reset_inv

end Sys2Proof
end

section
/-! SUPPORT. What a step does with each thing presented to it (20_memory.md rules R56, R58), that a well-formed command
is read back from the request presenting it (30_encoding.md rules R79 to R87), how commands presented together run, the
word of a COMPOSED register (10_state.md rule R26), and what a step of one block does to a system (20_memory.md rule
R57). -/

namespace Sys2Proof

open Machine

/-- A command the ports can present is read back from its request: each operand is read off the port it was put on. -/
theorem decode_encode {i : Instr} (h : i.wf = true) : decode (encode i) = i := by
  cases i <;> simp only [Instr.wf, Bool.and_eq_true] at h <;>
    simp [decode, encode, Request.blank, Instr.code, bitsOperand_port, hexOperand_port, int_port, len_port, h]

namespace Machine

/-! What is presented, and what the step then does. -/

theorem presented_of_nil {s : State} (h : s.inputs = []) : s.presented = .nothing := by
  rw [State.presented, h]

theorem presented_of_no_request {s : State} {rest : List Input} (h : s.inputs = ⟨false, []⟩ :: rest) :
    s.presented = .nothing := by
  rw [State.presented, h]

theorem presented_of_request {s : State} {r : Request} {rest : List Input} (h : s.inputs = ⟨false, [r]⟩ :: rest) :
    s.presented = .command (decode r) := by
  rw [State.presented, h]

theorem presented_of_requests {s : State} {r q : Request} {more : List Request} {rest : List Input}
    (h : s.inputs = ⟨false, r :: q :: more⟩ :: rest) : s.presented = .overlapping := by
  rw [State.presented, h]

theorem consume_of_inputs {s : State} {x : Input} {rest : List Input} (h : s.inputs = x :: rest) :
    s.consume = { s with inputs := rest } := by
  rw [State.consume, h, List.tail_cons]

theorem step_of_nothing {s : State} (h : s.presented = .nothing) : step s = .next s.consume.idle := by
  rw [step, h]

theorem step_of_command {s : State} {i : Instr} (h : s.presented = .command i) : step s = exec i s.consume := by
  rw [step, h]

theorem step_of_overlapping {s : State} (h : s.presented = .overlapping) : step s = .refused .overlappingRequests := by
  rw [step, h]

/-- A request presented for the very next step is performed in it, at the state before. -/
@[simp] theorem step_present (s : State) (r : Request) : step (s.present r) = exec (decode r) s :=
  step_of_command (s.presented_present r)

/-- What a table word decodes to is what the request of its low bits presents. -/
theorem decode_of_decodeTableWord {nbits w : Nat} {i : Instr} (h : decodeTableWord nbits w = some i) :
    decode (Request.ofNat (w % 2 ^ nbits)) = i := by
  unfold decodeTableWord decodeWord at h
  split at h
  next j hj =>
    split at hj
    · cases hj; cases h; rfl
    · cases hj
  · cases h

/-! Commands presented together. -/

/-- A command that answers leaves the inputs alone. -/
theorem exec_keeps_inputs {i : Instr} {s t : State} (h : exec i s = .next t) : t.inputs = s.inputs := by
  obtain ⟨u, hu, -, hin⟩ := exec_inputs i s s.inputs
  cases hu.symm.trans h
  exact hin

@[simp] theorem presentAll_nil (s : State) : s.presentAll [] = s := rfl

theorem presentAll_cons (i : Instr) (is : List Instr) (s : State) :
    s.presentAll (i :: is) = (s.presentAll is).present (encode i) := rfl

/-- A command does the same whether other commands are presented after it or not, and leaves them presented. -/
theorem exec_presentAll (i : Instr) (is : List Instr) (s : State) :
    ∃ t, exec i s = .next t ∧ exec i (s.presentAll is) = .next (t.presentAll is) := by
  obtain ⟨t, hs, hall, hin⟩ := exec_inputs i s (s.presentAll is).inputs
  refine ⟨t, hs, hall.trans ?_⟩
  rw [State.presentAll, State.presentAll, hin]

/-- The first of several well-formed commands presented is performed in the next step, the others still presented. -/
theorem step_presentAll_cons {i : Instr} (h : i.wf = true) (is : List Instr) (s : State) :
    ∃ t, exec i s = .next t ∧ step (s.presentAll (i :: is)) = .next (t.presentAll is) := by
  obtain ⟨t, hs, hall⟩ := exec_presentAll i is s
  exact ⟨t, hs, by rw [presentAll_cons, step_present, decode_encode h, hall]⟩

theorem core_run_succ (n : Nat) {s t : State} (h : step s = .next t) :
    Host.Core.run core (n + 1) s = Host.Core.run core n t := by
  have hcore : core.step s = .next t := h
  simp only [Host.Core.run, hcore]

theorem runCommands_cons_of_exec {i : Instr} {s t : State} (is : List Instr) (h : exec i s = .next t) :
    runCommands (i :: is) s = runCommands is t := by
  rw [runCommands, h]

/-! The word (R26). -/

theorem wordBits_of_composed {v : IV} (h : v.Consistent) (hs : v.status = .composed) :
    wordBits v.word = v.liveFb.flatten := by
  obtain ⟨-, -, hword⟩ := h
  exact hword hs

/-! Blocks side by side. -/

/-- A step of block `k` answers a system exactly when the block's own step answers a state, which takes its place. -/
theorem stepBlock_eq_next {sys t : System} {k : Nat} {s : State} (h : sys[k]? = some s) :
    System.stepBlock k sys = .next t ↔ ∃ u, step s = .next u ∧ t = sys.set k u := by
  simp only [System.stepBlock, h]
  cases step s <;> simp [eq_comm]

end Machine

end Sys2Proof
end

section
/-! PROOFS. The statements of 20_memory.md. -/

namespace Sys2Proof

open Machine

/-- Settles O49, by induction on the commands: the first is read back from its request and performed, with the others
still presented to the state it leaves. -/
theorem presentedCommandsRunInOrder : Obligations.PresentedCommandsRunInOrder := by
  intro is
  induction is with
  | nil => exact fun s _ => rfl
  | cons i is ih =>
    intro s hwf
    obtain ⟨hi, his⟩ := List.forall_mem_cons.mp hwf
    obtain ⟨t, hexec, hstep⟩ := step_presentAll_cons hi is s
    rw [runCommands_cons_of_exec is hexec]
    exact (core_run_succ is.length hstep).trans (ih t his)

/-- Settles O43: the step consumes the first input, and nothing it then does touches the inputs. -/
theorem stepUsesUpItsInputs : Obligations.StepUsesUpItsInputs := by
  intro s t h
  rcases step_next_cases h with rfl | rfl | ⟨i, he⟩
  · rfl
  · rfl
  · exact exec_keeps_inputs he

/-- Settles O46: the word is the live fields joined, and slicing them gives each back. -/
theorem composedWordSlicesAreTheFields : Obligations.ComposedWordSlicesAreTheFields := by
  intro v hv hst k hk
  have hslices : v.fmt.slices v.liveFb.flatten = v.liveFb :=
    (slices_flatten_fields v.fmt (liveFb_length v) fun _ => liveFb_widths hv (.inr hst)).2
  rw [← Fmt.slices_getD hk, wordBits_of_composed hv hst, hslices, liveFb_getD v hk]

/-- Settles O50: the block's own step decides the outcome, and its result is put at its place alone. -/
theorem blocksShareNoState : Obligations.BlocksShareNoState := by
  intro sys sys' k s hs hs' t ht
  obtain ⟨u, hu, rfl⟩ := (stepBlock_eq_next hs).mp ht
  refine ⟨fun j hj => List.getElem?_set_ne hj.symm, sys'.set k u, (stepBlock_eq_next hs').mpr ⟨u, hu, rfl⟩, ?_⟩
  obtain ⟨hk, -⟩ := List.getElem?_eq_some_iff.mp hs
  obtain ⟨hk', -⟩ := List.getElem?_eq_some_iff.mp hs'
  rw [List.getElem?_set_self hk, List.getElem?_set_self hk']

/-- Settles O6: a lone request is the command decoded from it, and withFetchWord puts such a request in front. -/
theorem stepPerformsThePresentedCommand : Obligations.StepPerformsThePresentedCommand := by
  refine ⟨fun s r rest h => ?_, fun s nbits w i h => ?_⟩
  · rw [step_of_command (presented_of_request h), consume_of_inputs h]
  · rw [State.withFetchWord, step_present, decode_of_decodeTableWord h]

/-- Settles O8: two requests in one input are read as overlapping. -/
theorem overlappingRequestsAreRefused : Obligations.OverlappingRequestsAreRefused :=
  fun _ _ _ _ _ h => step_of_overlapping (presented_of_requests h)

/-- Settles O9: either way nothing is presented, and the step only drops the response and the input. -/
theorem nothingPresentedChangesNothing : Obligations.NothingPresentedChangesNothing := by
  intro s h
  have hn : s.presented = .nothing := by
    rcases h with h | ⟨rest, h⟩
    · exact presented_of_nil h
    · exact presented_of_no_request h
  exact ⟨s.consume.idle, step_of_nothing hn, rfl, rfl, rfl⟩

end Sys2Proof
end

section
/-! SUPPORT. How a request is read, code by code, and what its operands can be (30_encoding.md rules R79 to R87); which
commands are of one kind, and the format bits of their codes (R85, R86, R89); what a starter, a COMPOSE and a reserved
command answer (41_format_codec.md, 60_exceptions.md rules R204, R205). -/

namespace Sys2Proof

open Machine

/-! Requests (R79 to R87). -/

/-- A request is read by the arm of its code. -/
theorem decode_of_cmd {r : Request} {c : BitVec 5} (h : r.cmd = c) : decode r = decode { r with cmd := c } := by
  subst h; rfl

/-- A number a request was laid out as presents the command of that request (log entry 3). -/
theorem decodeWord_toNat (r : Request) : decodeWord r.toNat = .ok (decode r) := by
  obtain ⟨hread, habove⟩ := r.ofNat_toNat
  rw [decodeWord, if_pos habove, hread]

/-- The codes whose commands read no field: COMPOSE and the reserved codes (R86, R87). -/
def codesWithoutOperands : List Nat :=
  [0x18, 0x19, 0x1A] ++ [0x09, 0x0A, 0x0B, 0x0C, 0x0D, 0x0E, 0x0F, 0x13, 0x17, 0x1B, 0x1F]

/-- A request with such a code is read as if every other field were 0. -/
theorem decode_eq_blank {r : Request} (h : r.cmd.toNat ∈ codesWithoutOperands) :
    decode r = decode (Request.blank r.cmd) := by
  simp only [codesWithoutOperands, List.cons_append, List.nil_append, List.mem_cons, List.not_mem_nil, or_false] at h
  have hblank : (Request.blank r.cmd).cmd = r.cmd := rfl
  rcases h with h | h | h | h | h | h | h | h | h | h | h | h | h | h <;> simp [decode, hblank, h]

/-- Every reserved code presents a reserved command (R86). -/
theorem isReserved_decode_blank : ∀ c : BitVec 5,
    c.toNat ∈ [0x09, 0x0A, 0x0B, 0x0C, 0x0D, 0x0E, 0x0F, 0x13, 0x17, 0x1B, 0x1F] →
      isReserved (decode (Request.blank c)) = true := by decide

/-! Operands the ports present (R79, R81, R83, R84). -/

@[simp] theorem BitsPort.operand_wf (p : BitsPort) : p.operand.wf = true := by
  rcases le_or_gt p.len.toNat 32 with h | h
  · simp [BitsPort.operand_of_le h, BitsOperand.wf, h]
  · have h64 : p.len.toNat < 64 := p.len.isLt
    simp [BitsPort.operand_of_gt h, BitsOperand.wf, h, h64]

@[simp] theorem HexPort.operand_wf (p : HexPort) : p.operand.wf = true := by
  rcases le_or_gt p.len.toNat 8 with h | h
  · simp [HexPort.operand_of_le h, HexOperand.wf]
  · have h16 : p.len.toNat < 16 := p.len.isLt
    simp [HexPort.operand_of_gt h, HexOperand.wf, h, h16]

@[simp] theorem intWf_toInt (p : IntPort) : intWf p.toInt = true := decide_eq_true (intPort_toInt_bounds p)

@[simp] theorem lenWf_toNat (t : BitVec 6) : lenWf t.toNat = true := decide_eq_true t.isLt

/-- Ports with one length whose data agree below it carry one operand (R81). -/
theorem BitsPort.operand_congr {p q : BitsPort} (hl : p.len = q.len)
    (h : ∀ j, j < p.len.toNat → p.data.getLsbD j = q.data.getLsbD j) : p.operand = q.operand := by
  rcases le_or_gt p.len.toNat 32 with hp | hp
  · rw [operand_of_le hp, operand_of_le (hl ▸ hp), ← hl]
    congr 1
    refine List.ext_getElem (by simp) fun i hi _ => ?_
    rw [bitsN_length] at hi
    rw [bitsN_getElem, bitsN_getElem]
    exact h _ (by omega)
  · rw [operand_of_gt hp, operand_of_gt (hl ▸ hp), hl]

/-- Ports with one length whose slots agree below it carry one operand (R84). -/
theorem HexPort.operand_congr {p q : HexPort} (hl : p.len = q.len)
    (h : ∀ j, (hj : j < 8) → j < p.len.toNat → p.ch[j] = q.ch[j]) : p.operand = q.operand := by
  rcases le_or_gt p.len.toNat 8 with hp | hp
  · rw [operand_of_le hp, operand_of_le (hl ▸ hp), ← hl]
    congr 1
    refine List.ext_getElem (by simp) fun j hj _ => ?_
    have hj : j < p.len.toNat ∧ j < 8 := by simpa using hj
    simpa using h j hj.2 hj.1
  · rw [operand_of_gt hp, operand_of_gt (hl ▸ hp), hl]

namespace Machine

/-! Kinds of commands and their codes (R85, R89). -/

theorem code_of_fillDecimal {i : Instr} {F : Fmt} {d : List Int} (h : asFillDecimal i = some (F, d)) :
    F.code.toNat = i.code.toNat % 4 := by
  cases i <;> cases h <;> simp [Fmt.code, Instr.code]

theorem code_of_fillBits {i : Instr} {F : Fmt} {a : List BitsOperand} {m : Mode} (h : asFillBits i = some (F, a, m)) :
    F.code.toNat = i.code.toNat % 4 := by
  cases i <;> cases h <;> simp [Fmt.code, Instr.code]

theorem code_of_decodeHex {i : Instr} {F : Fmt} {a : HexOperand} {m : Mode} (h : asDecodeHex i = some (F, a, m)) :
    F.code.toNat = i.code.toNat % 4 := by
  cases i <;> cases h <;> simp [Fmt.code, Instr.code]

theorem code_of_compose {i : Instr} {F : Fmt} (h : asCompose i = some F) : F.code.toNat = i.code.toNat % 4 := by
  cases i <;> cases h <;> simp [Fmt.code, Instr.code]

theorem startsValue_of_compose {i : Instr} {F : Fmt} (h : asCompose i = some F) : startsValue i = false := by
  cases i <;> cases h <;> rfl

theorem startsValue_of_primitive {i : Instr} (h : isPrimitive i = true) : startsValue i = false := by
  cases i <;> simp [isPrimitive, Instr.code] at h <;> rfl

/-! What commands of one kind answer. -/

/-- An error is never reported as OK (R206). -/
theorem CmdError.err_ne_zero (e : CmdError) : e.err ≠ 0 := by
  cases e <;> simp [CmdError.err]

/-- A command that starts a value succeeds, the register in the format of the command's code, or leaves it INVALID. -/
theorem exec_starter_cases {i : Instr} (h : startsValue i = true) (s : State) :
    (∃ v, exec i s = .next (s.finish v (Response.ok s.free)) ∧ v.fmt.code.toNat = i.code.toNat % 4) ∨
    ∃ e, exec i s = .next (s.takeError e true) := by
  rcases exec_cases i s with ⟨r, -, -, hi⟩ | ⟨F, d, b, hi, -, -, -, hx⟩ | ⟨F, b, m, hi, -, -, hx⟩ |
      ⟨F, cs, ds, m, hi, -, -, hx⟩ | ⟨r, hi, -⟩ | ⟨e, hx⟩
  · simp [startsValue_of_primitive hi] at h
  · exact .inl ⟨_, hx, code_of_fillDecimal hi⟩
  · exact .inl ⟨_, hx, code_of_fillBits hi⟩
  · exact .inl ⟨_, hx, code_of_decodeHex hi⟩
  · simp [startsValue_of_compose hi] at h
  · exact .inr ⟨e, h ▸ hx⟩

/-- A COMPOSE of a register of another format takes an error (R158). -/
theorem exec_compose_of_fmt_ne {i : Instr} {s : State} {F : Fmt} (hi : asCompose i = some F) (h : s.iv.fmt ≠ F) :
    exec i s = .next (s.takeError .state false) := by
  rw [exec_compose hi, compose_stateError fun hc => h hc.2]

/-- A COMPOSE of a register that holds no value takes an error (R158). -/
theorem exec_compose_of_invalid {i : Instr} {s : State} {F : Fmt} (hi : asCompose i = some F)
    (h : s.iv.status = .invalid) : exec i s = .next (s.takeError .state false) := by
  rw [exec_compose hi, compose_stateError (by simp [h])]

/-- A reserved command is the one illegal-command answer (R205). -/
theorem exec_reserved {i : Instr} (h : isReserved i = true) (s : State) : exec i s = s.illegal := by
  cases i <;> cases h <;> rfl

end Machine

end Sys2Proof
end

section
/-! PROOFS. The statements of 30_encoding.md. -/

namespace Sys2Proof

open Machine

/-- Settles O2: each operand is read off the port it was put on, and the number is read back field by field. -/
theorem decodingUndoesEncoding : Obligations.DecodingUndoesEncoding := by
  intro i h
  have hdecode : decode (encode i) = i := decode_encode h
  exact ⟨hdecode, by rw [encodeWord, decodeWord_toNat, hdecode]⟩

/-- Settles O3: whichever arm reads the request, its operands come off ports. -/
theorem decodedCommandsAreWellFormed : Obligations.DecodedCommandsAreWellFormed := by
  intro r
  unfold decode
  split <;> simp [Instr.wf]

/-- Settles O4, code by code: the arm of the code reads fields on which the requests agree. -/
theorem fieldsNotReadAreIgnored : Obligations.FieldsNotReadAreIgnored := by
  intro r q hcmd
  have hq {n : Nat} (h : r.cmd.toNat = n) : q.cmd.toNat = n := hcmd ▸ h
  have hblank (h : r.cmd.toNat ∈ codesWithoutOperands) : decode r = decode q := by
    calc decode r = decode (Request.blank r.cmd) := decode_eq_blank h
      _ = decode (Request.blank q.cmd) := by rw [hcmd]
      _ = decode q := (decode_eq_blank (hcmd ▸ h)).symm
  refine ⟨fun h ha => ?_, fun h ha ht hm => ?_, fun h hv ht => ?_, fun h ha hm => ?_, fun h hh => ?_,
    fun h hh hm => ?_, fun h hv ht => ?_, fun h hfd => ?_, fun h hfd => ?_, fun h hfd => ?_, fun h hfb hm => ?_,
    fun h hfb hm => ?_, fun h hfb => ?_, fun h => hblank (List.mem_append_left _ h),
    fun h => hblank (List.mem_append_right _ h), fun h hh hm => ?_, fun h hh => ?_⟩
  · simp only [List.mem_cons, List.not_mem_nil, or_false] at h
    rcases h with h | h | h <;> simp [decode, h, hq h, ha]
  · simp [decode, h, hq h, ha, ht, hm]
  · simp [decode, h, hq h, hv, ht]
  · simp [decode, h, hq h, ha, hm]
  · simp [decode, h, hq h, hh]
  · simp [decode, h, hq h, hh, hm]
  · simp [decode, h, hq h, hv, ht]
  · simp [decode, h, hq h, hfd]
  · simp [decode, h, hq h, hfd]
  · simp [decode, h, hq h, hfd]
  · simp [decode, h, hq h, hfb, hm]
  · simp [decode, h, hq h, hfb, hm]
  · simp [decode, h, hq h, hfb]
  · simp only [List.mem_cons, List.not_mem_nil, or_false] at h
    rcases h with h | h <;> simp [decode, h, hq h, hh, hm]
  · simp [decode, h, hq h, hh]

/-- Settles O5. -/
theorem bitsAboveTheLengthAreIgnored : Obligations.BitsAboveTheLengthAreIgnored :=
  ⟨fun _ _ => BitsPort.operand_congr, fun _ _ => HexPort.operand_congr⟩

/-- Settles O42: a starter that succeeds writes the format of its code, and a COMPOSE of any other format fails. -/
theorem formatCodesAgree : Obligations.FormatCodesAgree := by
  intro i s t r hexec hresp hok
  have not_error {e : CmdError} {b : Bool} (hx : exec i s = .next (s.takeError e b)) : False := by
    cases hx.symm.trans hexec
    cases hresp
    exact e.err_ne_zero hok
  refine ⟨fun hi => ?_, fun hi => ?_⟩
  · rcases exec_starter_cases hi s with ⟨v, hx, hfmt⟩ | ⟨e, hx⟩
    · cases hx.symm.trans hexec
      exact hfmt
    · exact (not_error hx).elim
  · obtain ⟨F, hF⟩ := Option.isSome_iff_exists.mp hi
    have hfmt : s.iv.fmt = F := by_contra fun hne => not_error (exec_compose_of_fmt_ne hF hne)
    rw [hfmt]
    exact code_of_compose hF

/-- Settles O48: the failed starter left the register INVALID, which COMPOSE refuses and keeps. -/
theorem composeAfterAFailedFillIsAStateError : Obligations.ComposeAfterAFailedFillIsAStateError := by
  intro f c s t r hf hc hexec hresp herr
  obtain ⟨F, hF⟩ := Option.isSome_iff_exists.mp hc
  rcases exec_starter_cases hf s with ⟨v, hx, -⟩ | ⟨e, hx⟩
  · cases hx.symm.trans hexec
    cases hresp
    exact absurd rfl herr
  · have hcompose : exec c (s.takeError e true) = .next ((s.takeError e true).takeError .state false) :=
      exec_compose_of_invalid hF rfl
    have hrun : runCommands [f, c] s = .next ((s.takeError e true).takeError .state false) := by
      rw [runCommands_cons_of_exec _ hx, runCommands_cons_of_exec _ hcompose, runCommands]
    exact ⟨_, _, hrun, rfl, ⟨rfl, rfl, rfl⟩, rfl⟩

/-- Settles O1, by evaluating the decoder on each of the given requests. -/
theorem codeWordsDecodeToTheirCommands : Obligations.CodeWordsDecodeToTheirCommands := by
  refine ⟨?primitives, ?reserved, ?fills, ?others, ?modes, ?strings, ?integers, ?bitFields⟩ <;> decide

/-- Settles O32: a reserved code is read as if nothing else stood on the ports, and has one answer. -/
theorem reservedCodesAreIllegal : Obligations.ReservedCodesAreIllegal := by
  refine ⟨fun r h => ?_, fun i s h => ?_⟩
  · rw [decode_eq_blank (List.mem_append_right _ h)]
    exact isReserved_decode_blank r.cmd h
  · exact ⟨_, _, exec_reserved h s, rfl, ⟨rfl, rfl, rfl⟩, rfl⟩

/-- Settles O52: each code has its arm. -/
theorem eachCommandReadsItsOwnFields : Obligations.EachCommandReadsItsOwnFields := by
  intro r m
  and_intros <;> exact decode_of_cmd

end Sys2Proof
end

section
/-! SUPPORT. What each primitive answers, one lemma per outcome (40_bit_primitives.md rules R111 to R122), the fixed points
of TWOS (R113), the nibbles of a hex form (R120), and the integers a mode can stand for at a width (R118). -/

namespace Sys2Proof

/-! Complements (R111, R113). -/

@[simp] theorem onesBits_onesBits (a : BitString) : onesBits (onesBits a) = a := by
  simp [onesBits, Function.comp_def]

/-- TWOS is negation modulo `2^n`. -/
theorem nat_twosBits_eq_neg (a : BitString) : (nat (twosBits a) : Int) = -(nat a : Int) % 2 ^ a.length := by
  have hlt := nat_lt a
  rw [nat_twosBits, Int.natCast_mod, Nat.cast_sub hlt.le, ← Int.add_emod_right (a := -(nat a : Int))]
  push_cast
  congr 1
  ring

/-- A value is its own negation modulo `2^n` when it is 0 or half of `2^n`. -/
theorem twosBits_eq_self_iff_nat (a : BitString) : twosBits a = a ↔ nat a = 0 ∨ 2 * nat a = 2 ^ a.length := by
  have hlt := nat_lt a
  have hval : twosBits a = a ↔ (2 ^ a.length - nat a) % 2 ^ a.length = nat a := by
    rw [← nat_twosBits]
    exact ⟨congrArg nat, eq_of_nat_eq (twosBits_length a)⟩
  rw [hval]
  rcases Nat.eq_zero_or_pos (nat a) with h0 | hpos
  · simp [h0]
  · rw [Nat.mod_eq_of_lt (by omega)]
    omega

theorem nat_eq_zero_iff (a : BitString) : nat a = 0 ↔ a = List.replicate a.length false := by
  rw [← nat_replicate_false a.length]
  exact ⟨eq_of_nat_eq (by simp), fun h => congrArg nat h⟩

/-- The strings of value `2^(n-1)`: a one followed by zeros. -/
theorem two_mul_nat_eq_pow_iff (a : BitString) :
    2 * nat a = 2 ^ a.length ↔ 1 ≤ a.length ∧ a = true :: List.replicate (a.length - 1) false := by
  cases a with
  | nil => simp
  | cons b s =>
    have hlt := nat_lt s
    cases b with
    | false => simp [pow_succ]; omega
    | true => simp [pow_succ, mul_comm 2, nat_eq_zero_iff]

/-- The fixed points of TWOS (R113). -/
theorem twosBits_eq_self_iff (a : BitString) : twosBits a = a ↔
    a = List.replicate a.length false ∨ (1 ≤ a.length ∧ a = true :: List.replicate (a.length - 1) false) := by
  rw [twosBits_eq_self_iff_nat, nat_eq_zero_iff, two_mul_nat_eq_pow_iff]

/-! Extension to the string's own length (R114). -/

theorem zext_self (s : BitString) : zext s.length s = s := by simp [zext]

theorem sext_self (s : BitString) : sext s.length s = s := by simp [sext]

/-! Nibbles (R120). -/

/-- Character `j` of a hex form is the digit of bits `4j` to `4j+3`. -/
theorem hexChars_getD_eq_nibble {s : BitString} (h : s.length % 4 = 0) {j : Nat} (hj : j < s.length / 4) (x : HexChar) :
    (hexChars s).getD j x = chr (nat ((s.drop (4 * j)).take 4)) := by
  have hexp : s.length - 4 * j - 4 = 4 * (s.length / 4 - 1 - j) := by omega
  rw [hexChars_getD (n := s.length / 4) (by omega) hj, nat_take_drop s (by omega), hexp, pow_mul]
  norm_num

namespace Machine

/-! Primitives as functions of the free-value counter alone (R110). -/

theorem answerBits_eq_finish (x : Except CmdError BitString) :
    ∃ f : Nat → Response, ∀ s : State, s.answerBits x = .next (s.finish s.iv (f s.free)) := by
  cases x with
  | ok b => exact ⟨fun n => { Response.ok n with rb := BitsPort.ofString b }, fun _ => rfl⟩
  | error e => exact ⟨Response.error e, fun _ => rfl⟩

theorem answerInt_eq_finish (x : Except CmdError Int) :
    ∃ f : Nat → Response, ∀ s : State, s.answerInt x = .next (s.finish s.iv (f s.free)) := by
  cases x with
  | ok v => exact ⟨fun n => { Response.ok n with ri := IntPort.ofInt v }, fun _ => rfl⟩
  | error e => exact ⟨Response.error e, fun _ => rfl⟩

theorem answerHex_eq_finish (x : Except CmdError (List HexChar)) :
    ∃ f : Nat → Response, ∀ s : State, s.answerHex x = .next (s.finish s.iv (f s.free)) := by
  cases x with
  | ok cs => exact ⟨fun n => { Response.ok n with rh := HexPort.ofString cs }, fun _ => rfl⟩
  | error e => exact ⟨Response.error e, fun _ => rfl⟩

/-- A primitive keeps the register, and its response is a function of the free-value counter alone. -/
theorem primitive_eq_finish {i : Instr} (h : isPrimitive i = true) :
    ∃ f : Nat → Response, ∀ s, exec i s = .next (s.finish s.iv (f s.free)) := by
  rcases primitive_answers h with ⟨x, hx⟩ | ⟨x, hx⟩ | ⟨x, hx⟩
  · simpa only [hx] using answerBits_eq_finish x
  · simpa only [hx] using answerInt_eq_finish x
  · simpa only [hx] using answerHex_eq_finish x

/-! ONES and TWOS (R111, R112). -/

theorem onesComplement_ok {b : BitString} (h : b.length ≤ 32) : onesComplement (.str b) = .ok (onesBits b) := by
  rw [onesComplement, readBits_str h]

theorem onesComplement_tooLong {a : BitsOperand} (h : BitsOperandTooLong a) :
    onesComplement a = .error (.precondition .portWidth 0) := by
  rw [onesComplement, readBits_tooLong h]

theorem twosComplement_ok {b : BitString} (h : b.length ≤ 32) : twosComplement (.str b) = .ok (twosBits b) := by
  rw [twosComplement, readBits_str h]

theorem twosComplement_tooLong {a : BitsOperand} (h : BitsOperandTooLong a) :
    twosComplement a = .error (.precondition .portWidth 0) := by
  rw [twosComplement, readBits_tooLong h]

/-- TWOS undoes itself (R113). -/
theorem twosComplement_twosBits {b : BitString} (h : b.length ≤ 32) : twosComplement (.str (twosBits b)) = .ok b := by
  rw [twosComplement_ok (by simpa using h), twosBits_twosBits]

/-! BEXT (R114). -/

theorem bitExtend_portWidth {a : BitsOperand} {t : Nat} (x : ExtKind) (h : BitsOperandTooLong a ∨ 32 < t) :
    bitExtend a t x = .error (.precondition .portWidth 0) := by
  by_cases ha : BitsOperandTooLong a
  · rw [bitExtend, readBits_tooLong ha]
  · simp only [BitsOperandTooLong, not_forall, not_lt] at ha
    obtain ⟨b, rfl, hb⟩ := ha
    simp [bitExtend, readBits_str hb, h.resolve_left fun hlong => Nat.not_lt.mpr hb (hlong b rfl)]

section
variable {b : BitString} {t : Nat} (hb : b.length ≤ 32) (ht : t ≤ 32)
include hb ht

theorem bitExtend_range (x : ExtKind) (h : t < b.length) : bitExtend (.str b) t x = .error (.range 0) := by
  simp [bitExtend, readBits_str hb, Nat.not_lt.mpr ht, h]

theorem bitExtend_zero (h : b.length ≤ t) : bitExtend (.str b) t .zero = .ok (zext t b) := by
  simp only [bitExtend, readBits_str hb, Nat.not_lt.mpr ht, Nat.not_lt.mpr h, if_false]
  split
  · next heq => rw [heq, zext_self]
  · rfl

/-- Sign extension needs a leading bit, except to the length 0, where there is nothing to replicate. -/
theorem bitExtend_sign (h : b.length ≤ t) (h0 : 0 < b.length ∨ t = 0) :
    bitExtend (.str b) t .sign = .ok (sext t b) := by
  simp only [bitExtend, readBits_str hb, Nat.not_lt.mpr ht, Nat.not_lt.mpr h, if_false]
  split
  · next heq => rw [heq, sext_self]
  · rw [if_neg (by omega)]

theorem bitExtend_empty (h0 : b.length = 0) (h : 0 < t) :
    bitExtend (.str b) t .sign = .error (.precondition .empty 0) := by
  simp [bitExtend, readBits_str hb, Nat.not_lt.mpr ht, h0, Nat.pos_iff_ne_zero.mp h]

end

/-- The value after sign extension; the empty string, extended to nothing, keeps its value 0. -/
theorem nat_sext_of_le {b : BitString} {t : Nat} (h : b.length ≤ t) (h0 : 0 < b.length ∨ t = 0) :
    nat (sext t b) = nat b + if 2 ^ b.length ≤ 2 * nat b then 2 ^ t - 2 ^ b.length else 0 := by
  rw [nat_sext h]
  rcases Nat.eq_zero_or_pos b.length with hz | hpos
  · obtain rfl := List.eq_nil_of_length_eq_zero hz
    simp
  · simp only [headD_eq b hpos, decide_eq_true_eq]

/-! B2D (R117). -/

theorem bitsToDecimal_empty (m : Mode) : bitsToDecimal (.str []) m = .error (.precondition .empty 0) := rfl

theorem bitsToDecimal_tooLong {a : BitsOperand} (m : Mode) (h : BitsOperandTooLong a) :
    bitsToDecimal a m = .error (.precondition .portWidth 0) := by
  rw [bitsToDecimal, readBits_tooLong h]

/-! B2H and H2B (R119, R120). -/

theorem bitsToHex_notNibble {b : BitString} (h : b.length ≤ 32) (h4 : b.length % 4 ≠ 0) :
    bitsToHex (.str b) = .error (.precondition .notNibble 0) := by
  simp [bitsToHex, readBits_str h, h4]

theorem bitsToHex_tooLong {a : BitsOperand} (h : BitsOperandTooLong a) :
    bitsToHex a = .error (.precondition .portWidth 0) := by
  rw [bitsToHex, readBits_tooLong h]

/-- H2B reads back what B2H writes (R123). -/
theorem hexToBits_hexChars {a : BitString} (h : a.length ≤ 32) (h4 : a.length % 4 = 0) :
    hexToBits (.str (hexChars a)) = .ok a := by
  obtain ⟨ds, hspells, hlen, hbits⟩ := hexChars_spells h4
  rw [hexToBits_ok hspells (by omega), hbits]

/-- B2H writes back what H2B reads (R123). -/
theorem bitsToHex_of_spells {cs : List HexChar} {ds : List Nat} (hs : Spells cs ds) (h : ds.length ≤ 8) :
    bitsToHex (.str (ds.flatMap (bitsN 4))) = .ok cs := by
  obtain ⟨h16, rfl⟩ := hs
  have hlen := length_flatMap_bitsN ds
  rw [bitsToHex_ok (by omega) (by omega), hexChars_flatMap h16]

/-- A character's index fits `resp.info` (R206). -/
theorem info_of_index {cs : List HexChar} {k : Nat} (h8 : cs.length ≤ 8) (hk : k < cs.length) (c : SubCause) :
    (CmdError.precondition c k).info.toNat = k :=
  (BitVec.toNat_ofNat k 3).trans (Nat.mod_eq_of_lt (by omega))

/-! H2D (R121): H2B, then B2D. -/

theorem hexToDecimal_of_bits {h : HexOperand} {b : BitString} (m : Mode) (hb : hexToBits h = .ok b) :
    hexToDecimal h m = bitsToDecimal (.str b) m := by
  rw [hexToDecimal, hb]

theorem hexToDecimal_of_error {h : HexOperand} {e : CmdError} (m : Mode) (he : hexToBits h = .error e) :
    hexToDecimal h m = .error e := by
  rw [hexToDecimal, he]

theorem hexToDecimal_empty (m : Mode) : hexToDecimal (.str []) m = .error (.precondition .empty 0) := rfl

theorem hexToDecimal_ok {cs : List HexChar} {ds : List Nat} (m : Mode) (hs : Spells cs ds) (h1 : 1 ≤ ds.length)
    (h8 : ds.length ≤ 8) :
    hexToDecimal (.str cs) m = .ok (valueInMode (4 * ds.length) (digitsValue ds) m) := by
  have hlen := length_flatMap_bitsN ds
  rw [hexToDecimal_of_bits m (hexToBits_ok hs h8), bitsToDecimal_ok (by omega) (by omega),
    valueOf_of_length hlen (by omega), nat_flatMap hs.1]

/-- A value at a width of 1 to 32 bits stands on the integer port as itself (R83). -/
theorem toInt_valueOf {b : BitString} (h0 : 0 < b.length) (h : b.length ≤ 32) (m : Mode) :
    (IntPort.ofInt (valueOf b m)).toInt = valueOf b m := by
  obtain ⟨hlo, hhi⟩ := valueOf_bounds h0 h m
  exact toInt_ofInt (by omega) hhi

/-! D2H (R122): D2B at four bits a digit, then B2H. -/

theorem decimalToHex_portWidth {v : Int} {n : Nat} (h : 8 < n) :
    decimalToHex v n = .error (.precondition .portWidth 0) := if_pos (by simp only [Config.WMAX]; omega)

theorem decimalToHex_of_bits {v : Int} {n : Nat} {b : BitString} (hb : decimalToBits v (4 * n) = .ok b) :
    decimalToHex v n = .ok (hexChars b) := by
  obtain ⟨-, h32, -, hlen, -⟩ := decimalToBits_eq_ok hb
  rw [decimalToHex, if_neg (Nat.not_lt.mpr h32), hb]
  exact bitsToHex_ok (by omega) (by omega)

theorem decimalToHex_of_error {v : Int} {n : Nat} {e : CmdError} (h : n ≤ 8)
    (he : decimalToBits v (4 * n) = .error e) : decimalToHex v n = .error e := by
  rw [decimalToHex, if_neg (by simp only [Config.WMAX]; omega), he]

/-! Integers through a bit string (R118, R123, R124). -/

/-- The integers that `w` bits stand for in a mode (R118). -/
def FitsMode (w : Nat) (u : Int) : Mode → Prop
  | .unsigned => 0 ≤ u ∧ u < 2 ^ w
  | .signed => -(2 ^ (w - 1)) ≤ u ∧ u < 2 ^ (w - 1)

/-- A string stands for the one integer of the mode's range in its residue class modulo `2^w` (R118). -/
theorem valueInMode_eq {w x : Nat} {u : Int} {m : Mode} (hw : 1 ≤ w) (hfit : FitsMode w u m)
    (hx : (x : Int) = u % 2 ^ w) : valueInMode w x m = u := by
  cases m with
  | unsigned =>
    obtain ⟨hlo, hhi⟩ := hfit
    exact hx.trans (Int.emod_eq_of_lt hlo hhi)
  | signed =>
    obtain ⟨hlo, hhi⟩ := hfit
    have hhalf : (2 : Int) * 2 ^ (w - 1) = 2 ^ w := mul_pow_sub_one (by omega) 2
    have hupper : 2 ^ w ≤ 2 * x ↔ (2 : Int) ^ w ≤ 2 * x := by exact_mod_cast Iff.rfl
    simp only [valueInMode, hupper]
    rcases le_or_gt 0 u with h0 | hneg
    · have hxu : (x : Int) = u := hx.trans (Int.emod_eq_of_lt h0 (by omega))
      rw [if_neg (by omega), hxu]
    · have hxu : (x : Int) = u + 2 ^ w := by
        rw [hx, ← Int.add_emod_right, Int.emod_eq_of_lt (by omega) (by omega)]
      rw [if_pos (by omega), hxu, add_sub_cancel_right]

theorem natAbs_lt_two_pow {v : Int} {w : Nat} (hlo : -(2 ^ w - 1) ≤ v) (hhi : v ≤ 2 ^ w - 1) : v.natAbs < 2 ^ w := by
  zify
  exact abs_lt.mpr ⟨by omega, by omega⟩

/-- Encoded on `w` bits and decoded in a mode, a value comes back as the integer of the mode's range that is the same
modulo `2^w`. -/
theorem decimal_roundTrip {v u : Int} {w : Nat} {m : Mode} (h1 : 1 ≤ w) (h32 : w ≤ 32) (hlo : -(2 ^ w - 1) ≤ v)
    (hhi : v ≤ 2 ^ w - 1) (hmod : v % 2 ^ w = u % 2 ^ w) (hfit : FitsMode w u m) :
    ∃ b, decimalToBits v w = .ok b ∧ bitsToDecimal (.str b) m = .ok u := by
  obtain ⟨b, hb, hlen, hval⟩ := decimalToBits_ok h1 h32 (natAbs_lt_two_pow hlo hhi)
  refine ⟨b, hb, ?_⟩
  rw [bitsToDecimal_ok (by omega) (by omega), valueOf_of_length hlen h1, valueInMode_eq h1 hfit (hval.trans hmod)]

/-- D2B of the negative is TWOS of D2B (R123). -/
theorem decimalToBits_neg {v : Int} {w : Nat} {b : BitString} (h : decimalToBits v w = .ok b) :
    decimalToBits (-v) w = .ok (twosBits b) := by
  obtain ⟨h0, h32, habs, hlen, hval⟩ := decimalToBits_eq_ok h
  obtain ⟨c, hc, hclen, hcval⟩ := decimalToBits_ok (v := -v) h0 h32 (by simpa using habs)
  have hnat : (nat (twosBits b) : Int) = nat c := by
    rw [nat_twosBits_eq_neg, hlen, hval, hcval]
    exact (Int.mod_modEq v _).neg
  rw [hc, eq_of_nat_eq (by simp [hlen, hclen]) (Int.ofNat_inj.mp hnat)]

end Machine

end Sys2Proof
end

section
/-! PROOFS. The statements of 40_bit_primitives.md. -/

namespace Sys2Proof

open Machine

/-- Settles O23, law by law. -/
theorem conversionRoundTrips : Obligations.ConversionRoundTrips := by
  refine ⟨fun v w h1 h32 hlo hhi => ?signed, fun v w h1 h32 hlo hhi => ?unsigned, fun v w b h => ?width,
    fun a ha => ?involution, fun cs ds hs h8 => ?hexFirst, fun a ha h4 => ?bitsFirst, fun v hlo hhi => ?throughHex,
    fun v w h1 h32 hv => ?negation⟩
  case signed =>
    have hhalf : (2 : Int) * 2 ^ (w - 1) = 2 ^ w := mul_pow_sub_one (by omega) 2
    exact decimal_roundTrip h1 h32 (by omega) (by omega) rfl ⟨hlo, Int.lt_of_le_sub_one hhi⟩
  case unsigned =>
    exact decimal_roundTrip h1 h32 (by omega) hhi rfl ⟨hlo, Int.lt_of_le_sub_one hhi⟩
  case width =>
    obtain ⟨-, -, -, hlen, -⟩ := decimalToBits_eq_ok h
    exact hlen
  case involution => exact ⟨_, twosComplement_ok ha, twosComplement_twosBits ha⟩
  case hexFirst => exact ⟨_, hexToBits_ok hs h8, bitsToHex_of_spells hs h8⟩
  case bitsFirst => exact ⟨_, bitsToHex_ok ha h4, hexToBits_hexChars ha h4⟩
  case throughHex =>
    obtain ⟨b, hb, hdec⟩ := decimal_roundTrip (v := v) (w := 4 * 8) (m := .signed) (by decide) (by decide) (by omega)
      (by omega) rfl ⟨hlo, Int.lt_of_le_sub_one hhi⟩
    obtain ⟨-, -, -, hlen, -⟩ := decimalToBits_eq_ok hb
    refine ⟨_, decimalToHex_of_bits hb, ?_⟩
    rw [hexToDecimal_of_bits _ (hexToBits_hexChars hlen.le (by omega)), hdec]
  case negation =>
    have hpos : 0 < 2 ^ w := by positivity
    obtain ⟨b, hb, hlen, -⟩ := decimalToBits_ok (v := v) h1 h32 (by omega)
    exact ⟨b, _, hb, twosComplement_ok (hlen ▸ h32), decimalToBits_neg hb⟩

/-- Settles O24: what comes back is the value's residue in the range of the mode. -/
theorem outOfRangeValuesComeBackShifted : Obligations.OutOfRangeValuesComeBackShifted := by
  intro v w h1 h32
  have hhalf : (2 : Int) * 2 ^ (w - 1) = 2 ^ w := mul_pow_sub_one (by omega) 2
  have hpos : (0 : Int) < 2 ^ (w - 1) := by positivity
  refine ⟨fun hlo hhi => ?_, fun hlo hhi => ?_, fun hlo hneg => ?_⟩
  · exact decimal_roundTrip h1 h32 (by omega) hhi (Int.sub_emod_right ..).symm ⟨by omega, by omega⟩
  · exact decimal_roundTrip h1 h32 hlo (by omega) (Int.add_emod_right ..).symm ⟨by omega, by omega⟩
  · exact decimal_roundTrip h1 h32 hlo (by omega) (Int.add_emod_right ..).symm ⟨by omega, by omega⟩

/-- Settles O12: the flipped string is the answer, and flipping it again gives the operand. -/
theorem onesFlipsEveryBit : Obligations.OnesFlipsEveryBit := by
  refine ⟨fun b hb => ⟨onesBits b, onesComplement_ok hb, ?_⟩, fun a s => ⟨fun b ha hb => ?_, fun ha => ?_⟩⟩
  · rw [onesComplement_ok (by simpa using hb), onesBits_onesBits]
  · subst ha
    have hcarries : Carries (BitsPort.ofString (onesBits b)) b.length (nat (onesBits b)) := by
      simpa using carries_ofString (s := onesBits b) (by simpa using hb)
    obtain ⟨t, r, ht, hr, hok, hrb, hiv⟩ :=
      answersBits_ok s (onesComplement_ok hb) (Carries · b.length (nat (onesBits b))) hcarries
    exact ⟨t, r, ht, hr, hok, hrb, nat_onesBits b, hiv⟩
  · exact answersBits_error s (onesComplement_tooLong ha) rfl rfl rfl

/-- Settles O13: the definition and the closed form are one value. -/
theorem twosNegatesAtItsWidth : Obligations.TwosNegatesAtItsWidth := by
  refine fun a s => ⟨fun b ha hb => ?_, fun ha => ?_⟩
  · subst ha
    have hcarries : Carries (BitsPort.ofString (twosBits b)) b.length (nat (twosBits b)) := by
      simpa using carries_ofString (s := twosBits b) (by simpa using hb)
    obtain ⟨t, r, ht, hr, hok, hrb, hiv⟩ :=
      answersBits_ok s (twosComplement_ok hb) (Carries · b.length (nat (twosBits b))) hcarries
    have hdef : nat (twosBits b) = (nat (onesBits b) + 1) % 2 ^ b.length := by simp [twosBits]
    exact ⟨t, r, ht, hr, hok, hdef ▸ hrb, nat_twosBits b ▸ hrb, hiv⟩
  · exact answersBits_error s (twosComplement_tooLong ha) rfl rfl rfl

/-- Settles O14: negation modulo `2^n`, its own inverse, fixes 0 and half of `2^n`. -/
theorem twosIsAnInvolution : Obligations.TwosIsAnInvolution := by
  intro a ha
  refine ⟨twosBits a, twosComplement_ok ha, ?_, twosComplement_twosBits ha, twosBits_eq_self_iff a⟩
  rw [← nat_twosBits, bitsN_nat_of_length (twosBits_length a)]

/-- Settles O15, by the target length and the kind. -/
theorem extendPadsAndNeverTruncates : Obligations.ExtendPadsAndNeverTruncates := by
  refine fun a n x s => ⟨fun b ha hb hn => ?_, fun h => ?portWidth⟩
  case portWidth => exact answersBits_error s (bitExtend_portWidth x h) rfl rfl rfl
  subst ha
  refine ⟨fun h => ?range, fun h hx => ?zero, fun h hx h0 => ?sign, fun h0 h hx => ?empty⟩
  case range => exact answersBits_error s (bitExtend_range hb hn x h) rfl rfl rfl
  case zero =>
    subst hx
    have hlen : (zext n b).length = n := zext_length h
    refine answersBits_ok s (bitExtend_zero hb hn h) (Carries · n (nat b)) ?_
    simpa [hlen, nat_zext] using carries_ofString (hlen.trans_le hn)
  case sign =>
    subst hx
    have hlen : (sext n b).length = n := sext_length h
    refine answersBits_ok s (bitExtend_sign hb hn h h0) (Carries · n _) ?_
    rw [← nat_sext_of_le h h0]
    simpa [hlen] using carries_ofString (hlen.trans_le hn)
  case empty =>
    subst hx
    exact answersBits_error s (bitExtend_empty hb hn h0 h) rfl rfl rfl

/-- Settles O16: D2B's closed form on its range, and its error at each way out of it. -/
theorem decimalToBitsIsModularOnItsRange : Obligations.DecimalToBitsIsModularOnItsRange := by
  refine fun v n s => ⟨fun h1 h32 hv => ?_, fun h1 h32 hv => ?_, fun h0 => ?_, fun h => ?_⟩
  · obtain ⟨b, hb, hlen, hval⟩ := decimalToBits_ok h1 h32 hv
    obtain ⟨t, r, ht, hr, hok, hrb, hiv⟩ :=
      answersBits_ok s hb (Carries · b.length (nat b)) (carries_ofString (hlen.trans_le h32))
    exact ⟨t, r, nat b, ht, hr, hok, hlen ▸ hrb, hval, hiv⟩
  · exact answersBits_error s (decimalToBits_range h1 h32 hv) rfl rfl rfl
  · subst h0
    exact answersBits_error s (decimalToBits_zeroWidth v) rfl rfl rfl
  · exact answersBits_error s (decimalToBits_portWidth h) rfl rfl rfl

/-- Settles O17: the value of 1 to 32 bits stands on the integer port as itself. -/
theorem bitsToDecimalReadsTheMode : Obligations.BitsToDecimalReadsTheMode := by
  refine fun a m s => ⟨fun b ha h1 h32 => ?_, fun ha => ?_, fun ha => ?_⟩
  · subst ha
    refine answersInt_ok s (bitsToDecimal_ok h1 h32 m) (·.toInt = _) ?_
    rw [toInt_valueOf h1 h32, valueOf_eq_valueInMode h1]
  · exact answersInt_error s (ha ▸ bitsToDecimal_empty m) rfl rfl rfl
  · exact answersInt_error s (bitsToDecimal_tooLong m ha) rfl rfl rfl

/-- Settles O18: the string's value is that of the digits it expands. -/
theorem hexToBitsExpandsEachDigit : Obligations.HexToBitsExpandsEachDigit := by
  refine fun h s => ⟨fun cs ds hh hs h8 => ?_, fun cs k hh h8 hk hn hl => ?_, fun hh => ?_⟩
  · subst hh
    have hlen := length_flatMap_bitsN ds
    refine answersBits_ok s (hexToBits_ok hs h8) (Carries · (4 * ds.length) (digitsValue ds)) ?_
    rw [← hlen, ← nat_flatMap hs.1]
    exact carries_ofString (by omega)
  · subst hh
    exact answersBits_error s (hexToBits_bad h8 hk hn hl) rfl rfl (info_of_index h8 hk _)
  · exact answersBits_error s (hexToBits_tooLong hh) rfl rfl rfl

/-- Settles O19: each character is the digit of its nibble. -/
theorem bitsToHexGivesEachNibble : Obligations.BitsToHexGivesEachNibble := by
  refine fun a s => ⟨fun b ha h32 h4 => ?_, fun b ha h32 h4 => ?_, fun ha => ?_⟩
  · subst ha
    refine answersHex_ok s (bitsToHex_ok h32 h4) (CarriesHex · (b.length / 4) _) ?_
    rw [← hexChars_length]
    refine carriesHex_ofString (by rw [hexChars_length]; omega) fun j hj => ?_
    exact hexChars_getD_eq_nibble h4 (by simpa using hj) 0
  · subst ha
    exact answersHex_error s (bitsToHex_notNibble h32 h4) rfl rfl rfl
  · exact answersHex_error s (bitsToHex_tooLong ha) rfl rfl rfl

/-- Settles O20: H2B's outcomes, and then B2D's. -/
theorem hexToDecimalReadsTheMode : Obligations.HexToDecimalReadsTheMode := by
  refine fun h m s => ⟨fun cs ds hh hs h1 h8 => ?_, fun hh => ?_, fun cs k hh h8 hk hn hl => ?_, fun hh => ?_⟩
  · subst hh
    have hlen := length_flatMap_bitsN ds
    refine answersInt_ok s (hexToDecimal_ok m hs h1 h8) (·.toInt = _) ?_
    rw [← nat_flatMap hs.1, ← valueOf_of_length hlen (by omega), toInt_valueOf (by omega) (by omega)]
  · subst hh
    exact answersInt_error s (hexToDecimal_empty m) rfl rfl rfl
  · subst hh
    exact answersInt_error s (hexToDecimal_of_error m (hexToBits_bad h8 hk hn hl)) rfl rfl (info_of_index h8 hk _)
  · exact answersInt_error s (hexToDecimal_of_error m (hexToBits_tooLong hh)) rfl rfl rfl

/-- Settles O21: D2B's outcomes at `4n` bits; the digits are the nibbles of its string. -/
theorem decimalToHexGivesExactlyItsDigits : Obligations.DecimalToHexGivesExactlyItsDigits := by
  refine fun v n s => ⟨fun h1 h8 hv => ?_, fun h1 h8 hv => ?_, fun h0 => ?_, fun h => ?_⟩
  · obtain ⟨b, hb, hlen, hval⟩ := decimalToBits_ok (v := v) (t := 4 * n) (by omega) (by omega) (by rwa [pow_mul])
    have hdigits : (hexChars b).length = n := by rw [hexChars_length]; omega
    have hcarries := carriesHex_ofString (cs := hexChars b) (hdigits.trans_le h8)
      fun j hj => hexChars_getD hlen (hdigits ▸ hj) 0
    obtain ⟨t, r, ht, hr, hok, hrh, hiv⟩ := answersHex_ok s (decimalToHex_of_bits hb) (CarriesHex · _ _) hcarries
    exact ⟨t, r, nat b, ht, hr, hok, by rw [hval, pow_mul]; rfl, hdigits ▸ hrh, hiv⟩
  · have hrange := decimalToBits_range (v := v) (t := 4 * n) (by omega) (by omega) (by rwa [pow_mul])
    exact answersHex_error s (decimalToHex_of_error h8 hrange) rfl rfl rfl
  · subst h0
    exact answersHex_error s (decimalToHex_of_error (Nat.zero_le 8) (decimalToBits_zeroWidth v)) rfl rfl rfl
  · exact answersHex_error s (decimalToHex_portWidth h) rfl rfl rfl

/-- Settles O22: the response is a function of the counter, and the rest of the answer is the state's own. -/
theorem primitivesNeitherReadNorWriteTheRegister : Obligations.PrimitivesNeitherReadNorWriteTheRegister := by
  intro i s s' hi hfree
  obtain ⟨f, hf⟩ := primitive_eq_finish hi
  exact ⟨_, _, hf s, hf s', by simp [hfree], rfl, rfl, rfl, rfl⟩

end Sys2Proof
end

section
/-! SUPPORT. What FILLD, FILLB, COMPOSE and DECODE answer, one lemma per outcome (41_format_codec.md rules R150, R154,
R158, R162), and what a register is when it is composed and its word decoded again (R166). -/

namespace Sys2Proof

open Machine

/-- Only the signed-capable field in the mode Signed is read otherwise than Unsigned (R76). -/
theorem Fmt.fieldMode_eq_unsigned {F : Fmt} {m : Mode} {k : Nat}
    (h : ¬ ((F = .R ∧ k = 4 ∨ F = .I ∧ k = 3) ∧ m = .signed)) : F.fieldMode m k = .unsigned := by
  rw [Fmt.fieldMode_eq]
  split
  next hcap =>
    cases m with
    | unsigned => rfl
    | signed => exact absurd ⟨hcap, rfl⟩ h
  next => rfl

/-- Two indices that are each the first with a property are one. -/
theorem first_unique {P : Nat → Prop} {j k : Nat} (hj : P j) (hj' : ∀ i, i < j → ¬ P i) (hk : P k)
    (hk' : ∀ i, i < k → ¬ P i) : j = k :=
  le_antisymm (not_lt.mp fun h => hj' k h hk) (not_lt.mp fun h => hk' j h hj)

/-- The operand of field `k`, of operands that are all strings. -/
theorem map_str_getD {b : List BitString} {k : Nat} (h : k < b.length) :
    (b.map BitsOperand.str).getD k (.overlong 0) = .str (b.getD k []) := by simp [List.getD, h]

namespace Machine

/-- A field's index fits `resp.info` (R206). -/
theorem toNat_ofNat_field {F : Fmt} {k : Nat} (hk : k < F.nfields) : (BitVec.ofNat 3 k).toNat = k :=
  (BitVec.toNat_ofNat k 3).trans (Nat.mod_eq_of_lt (by have := F.nfields_le; omega))

/-- An integer of a mode's range at a width has a magnitude D2B takes (R116). -/
theorem natAbs_lt_of_fitsMode {w : Nat} {u : Int} {m : Mode} (hw : 1 ≤ w) (h : FitsMode w u m) : u.natAbs < 2 ^ w := by
  have hhalf : (2 : Int) * 2 ^ (w - 1) = 2 ^ w := mul_pow_sub_one (by omega) 2
  have hpos : (0 : Int) < 2 ^ (w - 1) := by positivity
  cases m with
  | unsigned => obtain ⟨hlo, hhi⟩ := h; exact natAbs_lt_two_pow (by omega) (by omega)
  | signed => obtain ⟨hlo, hhi⟩ := h; exact natAbs_lt_two_pow (by omega) (by omega)

/-! FILLD (R150). -/

section
variable {i : Instr} {F : Fmt} {d : List Int} (hi : asFillDecimal i = some (F, d)) (s : State)
include hi

theorem exec_fillDecimal_ok (h : ∀ k, k < F.nfields → (d.getD k 0).natAbs < 2 ^ F.width k) :
    ∃ b, exec i s = .next (s.finish (IV.ofDecimal s.free F d b) (Response.ok s.free)) ∧ d.length = F.nfields ∧
      b.length = F.nfields ∧ ∀ k, k < F.nfields → decimalToBits (d.getD k 0) (F.width k) = .ok (b.getD k []) := by
  obtain ⟨hexec, hd⟩ := exec_fillDecimal hi s
  rw [hexec]
  rcases fillDecimal_cases s F hd with ⟨b, hx, hb, hbits⟩ | ⟨k, hk, hbig, -, -⟩
  · exact ⟨b, hx, hd, hb, hbits⟩
  · exact absurd (h k hk) (not_lt.mpr hbig)

theorem exec_fillDecimal_range {k : Nat} (hk : k < F.nfields) (hbig : 2 ^ F.width k ≤ (d.getD k 0).natAbs)
    (hsmall : ∀ j, j < k → (d.getD j 0).natAbs < 2 ^ F.width j) :
    exec i s = .next (s.takeError (.range k) true) := by
  obtain ⟨hexec, hd⟩ := exec_fillDecimal hi s
  rw [hexec]
  rcases fillDecimal_cases s F hd with ⟨b, -, -, hbits⟩ | ⟨j, -, hbig', hsmall', hx⟩
  · obtain ⟨-, -, habs, -, -⟩ := decimalToBits_eq_ok (hbits k hk)
    exact absurd habs (not_lt.mpr hbig)
  · have hjk : j = k := first_unique (P := fun j => 2 ^ F.width j ≤ (d.getD j 0).natAbs) hbig'
      (fun i hi => not_le.mpr (hsmall' i hi)) hbig (fun i hi => not_le.mpr (hsmall i hi))
    rw [hx, hjk]

end

/-! FILLB (R154). -/

theorem exec_fillBits_ok {i : Instr} {F : Fmt} {b : List BitString} {m : Mode}
    (hi : asFillBits i = some (F, b.map .str, m)) (s : State)
    (h : ∀ k, k < F.nfields → (b.getD k []).length = F.width k) :
    exec i s = .next (s.finish (IV.ofBits s.free F b m) (Response.ok s.free)) ∧ b.length = F.nfields := by
  obtain ⟨hexec, hlen, -⟩ := exec_fillBits hi s
  have hb : b.length = F.nfields := by simpa using hlen
  rw [hexec]
  rcases fillBits_cases s F m hlen with ⟨c, hx, hbc, -, -⟩ | ⟨k, hk, hbad, -, -⟩
  · have hbc : b = c := List.map_injective_iff.mpr (fun _ _ => BitsOperand.str.inj) hbc
    exact ⟨hbc ▸ hx, hb⟩
  · exact absurd (h k hk) (hbad _ (map_str_getD (hb ▸ hk)))

theorem exec_fillBits_fieldWidth {i : Instr} {F : Fmt} {a : List BitsOperand} {m : Mode}
    (hi : asFillBits i = some (F, a, m)) (s : State) {k : Nat} (hk : k < F.nfields)
    (hbad : ∀ b, a.getD k (.overlong 0) = .str b → b.length ≠ F.width k)
    (hgood : ∀ j, j < k → ∃ b, a.getD j (.overlong 0) = .str b ∧ b.length = F.width j) :
    exec i s = .next (s.takeError (.precondition .fieldWidth k) true) := by
  obtain ⟨hexec, hlen, -⟩ := exec_fillBits hi s
  have not_bad {j : Nat} (h : ∃ b, a.getD j (.overlong 0) = .str b ∧ b.length = F.width j) :
      ¬ ∀ b, a.getD j (.overlong 0) = .str b → b.length ≠ F.width j := by
    obtain ⟨b, hb, hw⟩ := h
    exact fun hall => hall b hb hw
  rw [hexec]
  rcases fillBits_cases s F m hlen with ⟨b, -, rfl, hb, hw⟩ | ⟨j, -, hbad', hgood', hx⟩
  · exact absurd (hw k hk) (hbad _ (map_str_getD (hb ▸ hk)))
  · have hjk : j = k := first_unique hbad' (fun i hi => not_bad (hgood' i hi)) hbad (fun i hi => not_bad (hgood i hi))
    rw [hx, hjk]

/-! DECODE (R162). -/

theorem wordString_ok {cs : List HexChar} {ds : List Nat} (hs : Spells cs ds) (h8 : ds.length = 8) :
    wordString (.str cs) = .ok (ds.flatMap (bitsN 4)) := by
  have hcs : cs.length = 8 := by rw [hs.2, List.length_map, h8]
  rw [wordString, if_neg (not_not.mpr hcs), hexToBits_ok hs h8.le]

theorem wordString_wordLength {h : HexOperand} (hn : ∀ cs, h = .str cs → cs.length ≠ 8) :
    wordString h = .error (.precondition .wordLength 0) := by
  cases h with
  | str cs => exact if_pos (hn cs rfl)
  | overlong n => rfl

theorem wordString_bad {cs : List HexChar} (h8 : cs.length = 8) {k : Nat} (hk : k < cs.length) (hn : digit cs[k] = none)
    (hl : ∀ j, (hj : j < k) → digit cs[j] ≠ none) :
    wordString (.str cs) = .error (.precondition .badHexDigit k) := by
  rw [wordString, if_neg (not_not.mpr h8), hexToBits_bad h8.le hk hn hl]

theorem exec_decodeHex_ok {g : Instr} {F : Fmt} {cs : List HexChar} {ds : List Nat} {m : Mode}
    (hg : asDecodeHex g = some (F, .str cs, m)) (hs : Spells cs ds) (h8 : ds.length = 8) (s : State) :
    exec g s = .next (s.finish (IV.ofWord s.free F (ds.flatMap (bitsN 4)) m) (Response.ok s.free)) := by
  obtain ⟨hexec, -⟩ := exec_decodeHex hg s
  rw [hexec, State.decodeHex, wordString_ok hs h8, IV.ofWord]

theorem exec_decodeHex_error {g : Instr} {F : Fmt} {h : HexOperand} {m : Mode} {e : CmdError}
    (hg : asDecodeHex g = some (F, h, m)) (he : wordString h = .error e) (s : State) :
    exec g s = .next (s.takeError e true) := by
  obtain ⟨hexec, -⟩ := exec_decodeHex hg s
  rw [hexec, State.decodeHex, he]

/-! COMPOSE (R158). -/

/-- What COMPOSE answers of the register it leaves: its word and its eight digits (R88). -/
def Response.composed (n : Nat) (v : IV) : Response :=
  { Response.ok n with rb := BitsPort.ofString (wordBits v.word), rh := HexPort.ofString v.hexview }

@[simp] theorem Response.composed_rb (n : Nat) (v : IV) :
    (Response.composed n v).rb = BitsPort.ofString (wordBits v.word) := rfl
@[simp] theorem Response.composed_rh (n : Nat) (v : IV) : (Response.composed n v).rh = HexPort.ofString v.hexview := rfl

theorem Response.composed_success (n : Nat) (v : IV) : (Response.composed n v).Success := ⟨rfl, rfl, rfl⟩

theorem exec_compose_ok {c : Instr} {s : State} {F : Fmt} (hc : asCompose c = some F)
    (hs : s.iv.status = .filled ∨ s.iv.status = .composed) (hF : s.iv.fmt = F) :
    exec c s = .next (s.finish s.iv.compose (Response.composed s.free s.iv.compose)) := by
  rw [exec_compose hc, compose_ok hs hF, Response.composed]

/-- Composing a consistent register that holds its word already changes nothing (R26). -/
theorem compose_of_composed {v : IV} (h : v.Consistent) (hs : v.status = .composed) : v.compose = v := by
  have hword : wordOf v.liveFb.flatten = v.word := by rw [← wordBits_of_composed h hs, wordOf_wordBits]
  rw [IV.compose, hword, ← hs]

/-- The word COMPOSE writes of a consistent register has the fields as its slices (R54). -/
theorem slice_compose {v : IV} (h : v.Consistent) (hs : v.status = .filled ∨ v.status = .composed) {k : Nat}
    (hk : k < v.fmt.nfields) : v.fmt.slice k (wordBits v.compose.word) = v.fbAt k :=
  composedWordSlicesAreTheFields v.compose (compose_consistent h hs) rfl k hk

/-! COMPOSE, and DECODE of its hex word (R166). -/

/-- DECODE of the hex word a COMPOSE answered reads the composed word. -/
theorem exec_decodeHex_of_composed {g : Instr} {F : Fmt} {n : Nat} {v : IV} {m : Mode}
    (hg : asDecodeHex g = some (F, (Response.composed n v).rh.operand, m)) (s : State) :
    exec g s = .next (s.finish (IV.ofWord s.free F (wordBits v.word) m) (Response.ok s.free)) := by
  obtain ⟨ds, hspells, h8, hbits⟩ := hexview_spells_word v
  rw [Response.composed_rh, hexPort_operand_ofString (hexview_length v).le] at hg
  rw [exec_decodeHex_ok hg hspells h8, hbits]

/-- A consistent value composes, and DECODE of the hex word COMPOSE answers gives its bit fields back, each with its
integer in the mode of the DECODE. -/
theorem compose_then_decode {c : Instr} {s : State} {F : Fmt} (h : s.iv.Consistent) (hc : asCompose c = some F)
    (hs : s.iv.status = .filled ∨ s.iv.status = .composed) (hF : s.iv.fmt = F) :
    ∃ u r, exec c s = .next u ∧ u.resp = some r ∧ r.Success ∧
      ∀ g m, asDecodeHex g = some (F, r.rh.operand, m) →
        ∃ x, exec g u = .next x ∧ x.iv.status = .composed ∧ x.iv.fmt = F ∧
          ∀ k, k < F.nfields → x.iv.fbAt k = s.iv.fbAt k ∧
            x.iv.decAt k = valueOf (s.iv.fbAt k) (F.fieldMode m k) := by
  refine ⟨_, _, exec_compose_ok hc hs hF, rfl, Response.composed_success _ _, fun g m hg => ?_⟩
  refine ⟨_, exec_decodeHex_of_composed hg _, rfl, rfl, fun k hk => ?_⟩
  subst hF
  rw [← slice_compose h hs hk]
  exact ⟨ofWord_fbAt _ _ m hk, ofWord_decAt _ _ m hk⟩

end Machine

end Sys2Proof
end

section
/-! PROOFS. The statements of 41_format_codec.md. -/

namespace Sys2Proof

open Machine

/-- Settles O33: a value of its field's range, put on its bits by FILLD, is what those bits stand for in the mode DECODE
reads the field in, and the bits come back through the word. -/
theorem decimalValuesSurviveTheWord : Obligations.DecimalValuesSurviveTheWord := by
  intro f c F d m s hf hc hrange
  have hfits {k : Nat} (hk : k < F.nfields) : FitsMode (F.width k) (d.getD k 0) (F.fieldMode m k) := by
    rcases hrange k hk with ⟨hlo, hhi, hnot⟩ | ⟨hcap, rfl, hlo, hhi⟩
    · rw [Fmt.fieldMode_eq_unsigned hnot]
      exact ⟨hlo, hhi⟩
    · rw [Fmt.fieldMode_eq, if_pos hcap]
      exact ⟨hlo, hhi⟩
  have hwidth {k : Nat} (hk : k < F.nfields) : 1 ≤ F.width k := by have := Fmt.width_pos hk; omega
  obtain ⟨b, hfill, hd, hb, hbits⟩ := exec_fillDecimal_ok hf s fun k hk => natAbs_lt_of_fitsMode (hwidth hk) (hfits hk)
  obtain ⟨u, r, hu, hr, hok, hdecode⟩ :=
    compose_then_decode (s := s.finish (IV.ofDecimal s.free F d b) (Response.ok s.free))
      (ofDecimal_consistent s.free hd hb hbits) hc (.inl rfl) rfl
  refine ⟨_, u, r, hfill, hu, hr, hok, fun g hg => ?_⟩
  obtain ⟨x, hx, hst, hfmt, hviews⟩ := hdecode g m hg
  refine ⟨x, hx, hst, hfmt, fun k hk => ?_⟩
  obtain ⟨-, hval⟩ := hviews k hk
  obtain ⟨-, -, -, hlen, hnat⟩ := decimalToBits_eq_ok (hbits k hk)
  rw [hval, State.finish_iv, ofDecimal_fbAt _ d hb hk, valueOf_of_length hlen (hwidth hk),
    valueInMode_eq (hwidth hk) (hfits hk) hnat]

/-- Settles O28: D2B's closed form on every field, or its RangeError at the first that is out of range. -/
theorem fillDecimalStoresBothViews : Obligations.FillDecimalStoresBothViews := by
  refine fun i F d s hi => ⟨fun h => ?_, fun k hk hbig hsmall => ?_⟩
  · obtain ⟨b, hx, hd, hb, hbits⟩ := exec_fillDecimal_ok hi s h
    refine ⟨_, _, hx, rfl, ⟨rfl, rfl, rfl⟩, rfl, rfl, rfl, rfl, fun k hk => ⟨ofDecimal_decAt _ b hd hk, ?_⟩⟩
    obtain ⟨-, -, -, hlen, hnat⟩ := decimalToBits_eq_ok (hbits k hk)
    rw [State.finish_iv, ofDecimal_fbAt _ d hb hk]
    exact ⟨hlen, hnat⟩
  · exact ⟨_, _, exec_fillDecimal_range hi s hk hbig hsmall, rfl, ⟨rfl, rfl, toNat_ofNat_field hk⟩, rfl⟩

/-- Settles O29: strings of their widths are stored with their values, or the first of another width is FIELD_WIDTH. -/
theorem fillBitsStoresBothViews : Obligations.FillBitsStoresBothViews := by
  refine fun i F a m s hi => ⟨fun b ha hw => ?_, fun k hk hbad hgood => ?_⟩
  · subst ha
    obtain ⟨hx, hb⟩ := exec_fillBits_ok hi s hw
    obtain ⟨-, -, hmode⟩ := exec_fillBits hi s
    refine ⟨_, _, hx, rfl, ⟨rfl, rfl, rfl⟩, rfl, rfl, rfl, hmode, fun k hk => ⟨ofBits_fbAt _ m hb hk, ?_⟩⟩
    obtain ⟨h5, -⟩ := Fmt.width_pos hk
    rw [State.finish_iv, ofBits_decAt _ m hb hk, valueOf_of_length (hw k hk) (by omega), Fmt.fieldMode_eq]
  · exact ⟨_, _, exec_fillBits_fieldWidth hi s hk hbad hgood, rfl, ⟨rfl, rfl, toNat_ofNat_field hk⟩, rfl⟩

/-- Settles O30: the response is the word's two renderings, and the fields of a consistent register are its slices. -/
theorem composeJoinsTheFields : Obligations.ComposeJoinsTheFields := by
  refine fun i F s hi => ⟨fun hs hF => ?_, fun hnot => ?_⟩
  · refine ⟨_, _, exec_compose_ok hi hs hF, rfl, Response.composed_success _ _, rfl, ?_, hexview_carries s.iv.compose,
      fun h k hk => ?_⟩
    · simpa using carries_ofString (s := wordBits s.iv.compose.word) (by simp)
    · subst hF
      rw [← slice_compose h hs hk, Fmt.nat_slice hk (wordBits_length _), nat_wordBits, State.finish_iv]
  · exact ⟨_, _, (exec_compose hi s).trans (compose_stateError hnot), rfl, ⟨rfl, rfl, rfl⟩, rfl⟩

/-- Settles O31: the fields are the slices of the bits the eight digits spell. -/
theorem decodeHexSlicesTheWord : Obligations.DecodeHexSlicesTheWord := by
  refine fun i F h m s hi => ⟨fun cs ds hh hs h8 => ?_, fun hn => ?_, fun cs k hh h8 hk hn hl => ?_⟩
  · subst hh
    have h32 : (ds.flatMap (bitsN 4)).length = 32 := by rw [length_flatMap_bitsN, h8]
    obtain ⟨-, hmode⟩ := exec_decodeHex hi s
    refine ⟨_, _, exec_decodeHex_ok hi hs h8 s, rfl, ⟨rfl, rfl, rfl⟩, rfl, rfl, rfl, hmode,
      toNat_wordOf_digits hs.1 h8, fun k hk => ?_⟩
    have hlen := Fmt.slice_length hk h32
    obtain ⟨h5, -⟩ := Fmt.width_pos hk
    rw [State.finish_iv, ofWord_fbAt _ _ m hk, ofWord_decAt _ _ m hk]
    refine ⟨hlen, ?_, ?_⟩
    · rw [Fmt.nat_slice hk h32, nat_flatMap hs.1]
    · rw [valueOf_of_length hlen (by omega), Fmt.fieldMode_eq]
  · exact ⟨_, _, exec_decodeHex_error hi (wordString_wordLength hn) s, rfl, ⟨rfl, rfl, rfl⟩, rfl⟩
  · subst hh
    have hinfo := info_of_index h8.le hk .badHexDigit
    exact ⟨_, _, exec_decodeHex_error hi (wordString_bad h8 hk hn hl) s, rfl, ⟨rfl, rfl, hinfo⟩, rfl⟩

/-- Settles O34: a decoded register is consistent and COMPOSED, so COMPOSE keeps it and answers its digits. -/
theorem wordsSurviveDecodeAndCompose : Obligations.WordsSurviveDecodeAndCompose := by
  intro g c F cs ds m s hg hc hs h8
  have h32 : (ds.flatMap (bitsN 4)).length = 32 := by rw [length_flatMap_bitsN, h8]
  have hkeep : (IV.ofWord s.free F (ds.flatMap (bitsN 4)) m).compose = IV.ofWord s.free F (ds.flatMap (bitsN 4)) m :=
    compose_of_composed (ofWord_consistent s.free F m h32) rfl
  refine ⟨_, _, _, exec_decodeHex_ok hg hs h8 s, exec_compose_ok hc (.inr rfl) rfl, rfl, Response.composed_success _ _,
    ?_, hkeep⟩
  obtain ⟨h16, rfl⟩ := hs
  rw [Response.composed_rh, State.finish_iv, hkeep, IV.hexview, ofWord_word, wordBits_wordOf h32, hexChars_flatMap h16]

/-- Settles O35: FILLB leaves a consistent register of the strings, whose fields come back through the word. -/
theorem bitFieldsSurviveTheWord : Obligations.BitFieldsSurviveTheWord := by
  intro f c F b m s hf hc hw
  obtain ⟨hfill, hb⟩ := exec_fillBits_ok hf s hw
  obtain ⟨u, r, hu, hr, hok, hdecode⟩ :=
    compose_then_decode (s := s.finish (IV.ofBits s.free F b m) (Response.ok s.free))
      (ofBits_consistent s.free m hb hw) hc (.inl rfl) rfl
  refine ⟨_, u, r, hfill, hu, hr, hok, fun g m' hg => ?_⟩
  obtain ⟨x, hx, hst, hfmt, hviews⟩ := hdecode g m' hg
  refine ⟨x, hx, hst, hfmt, fun k hk => ?_⟩
  obtain ⟨hbits, -⟩ := hviews k hk
  exact hbits.trans (ofBits_fbAt _ m hb hk)

/-- Settles O36: both registers are made from one word, whose slices no mode touches; a field that is not the
signed-capable one is read Unsigned by both. -/
theorem modeChangesOneDecimalView : Obligations.ModeChangesOneDecimalView := by
  intro g g' F cs ds m m' s s' hg hg' hs h8
  refine ⟨_, _, exec_decodeHex_ok hg hs h8 s, exec_decodeHex_ok hg' hs h8 s', rfl, fun k hk => ⟨?_, fun hnot => ?_⟩⟩
  · rw [State.finish_iv, State.finish_iv, ofWord_fbAt _ _ m hk, ofWord_fbAt _ _ m' hk]
  · rw [State.finish_iv, State.finish_iv, ofWord_decAt _ _ m hk, ofWord_decAt _ _ m' hk,
      Fmt.fieldMode_eq_unsigned fun h => hnot h.1, Fmt.fieldMode_eq_unsigned fun h => hnot h.1]

end Sys2Proof
end

section
/-! SUPPORT. What the response of a command can carry (60_exceptions.md rules R200 to R206): a success, or one of the
errors of the command's kind; and which operands each primitive rejects with PORT_WIDTH (R203). -/

namespace Sys2Proof

open Machine

namespace Machine

/-! Kinds of commands, and the errors of each kind. -/

/-- Every command is of one of six kinds (R85, R86). -/
theorem instr_kind_cases (i : Instr) :
    isPrimitive i = true ∨ (∃ F d, asFillDecimal i = some (F, d)) ∨ (∃ F a m, asFillBits i = some (F, a, m)) ∨
    (∃ F, asCompose i = some F) ∨ (∃ F h m, asDecodeHex i = some (F, h, m)) ∨ isReserved i = true := by
  cases i <;> simp [isPrimitive, Instr.code, asFillDecimal, asFillBits, asCompose, asDecodeHex, isReserved]

theorem startsValue_of_reserved {i : Instr} (h : isReserved i = true) : startsValue i = false := by
  cases i <;> cases h <;> rfl

/-- The errors a command can end in, by its kind (R201, R202, R204, R205). -/
inductive CommandError (i : Instr) : CmdError → Prop
  | primitive {e : CmdError} (hi : isPrimitive i = true) (he : PrimitiveError e) : CommandError i e
  | fieldRange {k : Nat} (hi : (asFillDecimal i).isSome) (hk : k < 6) : CommandError i (.range k)
  | fieldWidth {k : Nat} (hi : (asFillBits i).isSome) (hk : k < 6) : CommandError i (.precondition .fieldWidth k)
  | wordLength (hi : (asDecodeHex i).isSome) : CommandError i (.precondition .wordLength 0)
  | badHexDigit (hi : (asDecodeHex i).isSome) (k : Nat) : CommandError i (.precondition .badHexDigit k)
  | state (hi : (asCompose i).isSome) : CommandError i .state
  | illegalCommand (hi : isReserved i = true) : CommandError i .illegalCommand

/-- How a command ends: a success, or the shared error answer with an error of the command's kind (R208). -/
theorem exec_outcome (i : Instr) (s : State) :
    (∃ v r, exec i s = .next (s.finish v r) ∧ r.Success) ∨
    ∃ e, CommandError i e ∧ exec i s = .next (s.takeError e (startsValue i)) := by
  rcases instr_kind_cases i with hi | ⟨F, d, hi⟩ | ⟨F, a, m, hi⟩ | ⟨F, hi⟩ | ⟨F, h, m, hi⟩ | hi
  · rw [startsValue_of_primitive hi]
    rcases primitive_outcome hi s with ⟨r, hx, hok⟩ | ⟨e, he, hx⟩
    · exact .inl ⟨_, r, hx, hok⟩
    · exact .inr ⟨e, .primitive hi he, hx⟩
  · obtain ⟨hexec, hlen⟩ := exec_fillDecimal hi s
    rw [hexec, startsValue_of_fillDecimal hi]
    rcases fillDecimal_cases s F hlen with ⟨b, hx, -⟩ | ⟨k, hk, -, -, hx⟩
    · exact .inl ⟨_, _, hx, rfl, rfl, rfl⟩
    · exact .inr ⟨_, .fieldRange (Option.isSome_of_eq_some hi) (hk.trans_le F.nfields_le), hx⟩
  · obtain ⟨hexec, hlen, -⟩ := exec_fillBits hi s
    rw [hexec, startsValue_of_fillBits hi]
    rcases fillBits_cases s F m hlen with ⟨b, hx, -⟩ | ⟨k, hk, -, -, hx⟩
    · exact .inl ⟨_, _, hx, rfl, rfl, rfl⟩
    · exact .inr ⟨_, .fieldWidth (Option.isSome_of_eq_some hi) (hk.trans_le F.nfields_le), hx⟩
  · rw [exec_compose hi, startsValue_of_compose hi]
    by_cases hc : (s.iv.status = .filled ∨ s.iv.status = .composed) ∧ s.iv.fmt = F
    · exact .inl ⟨_, _, compose_ok hc.1 hc.2, rfl, rfl, rfl⟩
    · exact .inr ⟨_, .state (Option.isSome_of_eq_some hi), compose_stateError hc⟩
  · obtain ⟨hexec, -⟩ := exec_decodeHex hi s
    rw [hexec, startsValue_of_decodeHex hi]
    rcases decodeHex_cases s F h m with ⟨cs, ds, -, -, -, hx⟩ | ⟨-, hx⟩ | ⟨cs, k, -, -, -, -, -, hx⟩
    · exact .inl ⟨_, _, hx, rfl, rfl, rfl⟩
    · exact .inr ⟨_, .wordLength (Option.isSome_of_eq_some hi), hx⟩
    · exact .inr ⟨_, .badHexDigit (Option.isSome_of_eq_some hi) k, hx⟩
  · rw [startsValue_of_reserved hi]
    exact .inr ⟨_, .illegalCommand hi, exec_reserved hi s⟩

/-- What a response says of the command it answers: a success, or an error of the command's kind, taken. -/
theorem response_cases {i : Instr} {s t : State} {r : Response} (hexec : exec i s = .next t) (hresp : t.resp = some r) :
    r.Success ∨ ∃ e, CommandError i e ∧ t = s.takeError e (startsValue i) ∧ r = Response.error e s.free := by
  rcases exec_outcome i s with ⟨v, r', hx, hok⟩ | ⟨e, he, hx⟩
  · cases hx.symm.trans hexec
    cases hresp
    exact .inl hok
  · cases hx.symm.trans hexec
    cases hresp
    exact .inr ⟨e, he, rfl, rfl⟩

/-! The error fields (R206). -/

theorem CmdError.err_le (e : CmdError) : e.err.toNat ≤ 4 := by
  cases e <;> simp [CmdError.err]

theorem CmdError.sub_le (e : CmdError) : e.sub.toNat ≤ 6 := by
  rcases e with - | ⟨c, -⟩ | - | -
  case precondition => cases c <;> simp [CmdError.sub, SubCause.code]
  all_goals simp [CmdError.sub]

theorem CmdError.sub_eq_zero {e : CmdError} (h : e.err.toNat ≠ 2) : e.sub = 0 := by
  cases e with
  | precondition c k => exact absurd rfl h
  | range k => rfl
  | state => rfl
  | illegalCommand => rfl

/-- A field's index stands in `resp.info` (R206). -/
theorem toNat_ofNat_le_five {k : Nat} (h : k < 6) : (BitVec.ofNat 3 k).toNat ≤ 5 := by
  rw [BitVec.toNat_ofNat]; omega

/-- The errors that carry an index (R202, R206). -/
theorem CommandError.info_cases {i : Instr} {e : CmdError} (h : CommandError i e) (hinfo : e.info ≠ 0) :
    (e.err.toNat = 1 ∧ (asFillDecimal i).isSome ∧ e.info.toNat ≤ 5) ∨
    (e.err.toNat = 2 ∧ e.sub.toNat = 1 ∧ (asFillBits i).isSome ∧ e.info.toNat ≤ 5) ∨
    (e.err.toNat = 2 ∧ e.sub.toNat = 3) := by
  cases h with
  | primitive hi he =>
    rcases he with rfl | ⟨c, rfl⟩ | ⟨j, rfl⟩
    · exact absurd rfl hinfo
    · exact absurd rfl hinfo
    · exact .inr (.inr ⟨rfl, rfl⟩)
  | fieldRange hi hk => exact .inl ⟨rfl, hi, toNat_ofNat_le_five hk⟩
  | fieldWidth hi hk => exact .inr (.inl ⟨rfl, rfl, hi, toNat_ofNat_le_five hk⟩)
  | wordLength hi => exact absurd rfl hinfo
  | badHexDigit hi k => exact .inr (.inr ⟨rfl, rfl⟩)
  | state hi => exact absurd rfl hinfo
  | illegalCommand hi => exact absurd rfl hinfo

/-! PORT_WIDTH (R203). -/

/-- A response reports PreconditionError(PORT_WIDTH) (R202, R206). -/
def Response.ReportsPortWidth (r : Response) : Prop := r.err.toNat = 2 ∧ r.sub.toNat = 6

theorem Response.Success.not_reportsPortWidth {r : Response} (h : r.Success) : ¬ r.ReportsPortWidth := by
  simp [Response.ReportsPortWidth, h.1]

theorem Response.error_reportsPortWidth_iff (e : CmdError) (n : Nat) :
    (Response.error e n).ReportsPortWidth ↔ ∃ k, e = .precondition .portWidth k := by
  rcases e with - | ⟨c, k⟩ | - | -
  case precondition => cases c <;> simp [Response.ReportsPortWidth, CmdError.err, CmdError.sub, SubCause.code]
  all_goals simp [Response.ReportsPortWidth, CmdError.err]

/-- Only a primitive raises PORT_WIDTH. -/
theorem CommandError.isPrimitive_of_portWidth {i : Instr} {k : Nat} (h : CommandError i (.precondition .portWidth k)) :
    isPrimitive i = true := by
  cases h with
  | primitive hi _ => exact hi

theorem isPrimitive_of_portTooNarrow {i : Instr} (h : PortTooNarrow i) : isPrimitive i = true := by
  cases i <;> first | rfl | cases h

/-- The result of a primitive is the error PORT_WIDTH. -/
def RaisesPortWidth {α : Type} (x : Except CmdError α) : Prop := ∃ k, x = .error (.precondition .portWidth k)

@[simp] theorem not_raisesPortWidth_ok {α : Type} (a : α) : ¬ RaisesPortWidth (.ok a) := by simp [RaisesPortWidth]

@[simp] theorem raisesPortWidth_error {α : Type} (e : CmdError) :
    RaisesPortWidth (.error e : Except CmdError α) ↔ ∃ k, e = .precondition .portWidth k := by
  simp [RaisesPortWidth]

theorem ok_reportsPortWidth_iff {α : Type} (a : α) {r : Response} (h : r.Success) :
    r.ReportsPortWidth ↔ RaisesPortWidth (.ok a) :=
  iff_of_false h.not_reportsPortWidth (not_raisesPortWidth_ok a)

theorem error_reportsPortWidth_iff {α : Type} (e : CmdError) (n : Nat) :
    (Response.error e n).ReportsPortWidth ↔ RaisesPortWidth (.error e : Except CmdError α) := by
  rw [Response.error_reportsPortWidth_iff, raisesPortWidth_error]

/-- A primitive raises PORT_WIDTH for exactly the operands `P` describes, if it does for those and for no other. -/
theorem raisesPortWidth_iff {α : Type} {x : Except CmdError α} {P : Prop}
    (hP : P → x = .error (.precondition .portWidth 0)) (hnot : ¬ P → ¬ RaisesPortWidth x) : RaisesPortWidth x ↔ P :=
  ⟨fun h => by_contra fun hn => hnot hn h, fun h => ⟨0, hP h⟩⟩

theorem exists_str_of_not_tooLong {a : BitsOperand} (h : ¬ BitsOperandTooLong a) : ∃ b, a = .str b ∧ b.length ≤ 32 := by
  simpa [BitsOperandTooLong] using h

theorem exists_hexStr_of_not_tooLong {h : HexOperand} (hn : ¬ HexOperandTooLong h) :
    ∃ cs, h = .str cs ∧ cs.length ≤ 8 := by
  simpa [HexOperandTooLong] using hn

theorem onesComplement_portWidth_iff (a : BitsOperand) : RaisesPortWidth (onesComplement a) ↔ BitsOperandTooLong a := by
  refine raisesPortWidth_iff onesComplement_tooLong fun h => ?_
  obtain ⟨b, rfl, hb⟩ := exists_str_of_not_tooLong h
  simp [onesComplement_ok hb]

theorem twosComplement_portWidth_iff (a : BitsOperand) : RaisesPortWidth (twosComplement a) ↔ BitsOperandTooLong a := by
  refine raisesPortWidth_iff twosComplement_tooLong fun h => ?_
  obtain ⟨b, rfl, hb⟩ := exists_str_of_not_tooLong h
  simp [twosComplement_ok hb]

theorem bitExtend_portWidth_iff (a : BitsOperand) (t : Nat) (x : ExtKind) :
    RaisesPortWidth (bitExtend a t x) ↔ BitsOperandTooLong a ∨ 32 < t := by
  refine raisesPortWidth_iff (bitExtend_portWidth x) fun h => ?_
  obtain ⟨ha, ht⟩ := not_or.mp h
  obtain ⟨b, rfl, hb⟩ := exists_str_of_not_tooLong ha
  rw [not_lt] at ht
  rcases lt_or_ge t b.length with hlt | hle
  · simp [bitExtend_range hb ht x hlt]
  cases x with
  | zero => simp [bitExtend_zero hb ht hle]
  | sign =>
    by_cases h0 : 0 < b.length ∨ t = 0
    · simp [bitExtend_sign hb ht hle h0]
    · simp [bitExtend_empty hb ht (by omega) (by omega)]

theorem decimalToBits_portWidth_iff (v : Int) (t : Nat) : RaisesPortWidth (decimalToBits v t) ↔ 32 < t := by
  refine raisesPortWidth_iff decimalToBits_portWidth fun h => ?_
  rw [not_lt] at h
  rcases Nat.eq_zero_or_pos t with rfl | h0
  · simp [decimalToBits_zeroWidth]
  rcases lt_or_ge v.natAbs (2 ^ t) with hv | hv
  · obtain ⟨b, hb, -⟩ := decimalToBits_ok h0 h hv
    simp [hb]
  · simp [decimalToBits_range h0 h hv]

theorem bitsToDecimal_portWidth_iff (a : BitsOperand) (m : Mode) :
    RaisesPortWidth (bitsToDecimal a m) ↔ BitsOperandTooLong a := by
  refine raisesPortWidth_iff (bitsToDecimal_tooLong m) fun h => ?_
  obtain ⟨b, rfl, hb⟩ := exists_str_of_not_tooLong h
  cases b with
  | nil => simp [bitsToDecimal_empty]
  | cons x b => simp [bitsToDecimal_ok (s := x :: b) (by simp) hb]

/-- H2B of at most eight characters: four bits a digit, or a bad character. -/
theorem hexToBits_cases {cs : List HexChar} (h8 : cs.length ≤ 8) :
    (∃ b, hexToBits (.str cs) = .ok b ∧ b.length ≤ 32) ∨
    ∃ k, hexToBits (.str cs) = .error (.precondition .badHexDigit k) := by
  rcases expandDigits_cases 0 cs with ⟨ds, hs, -⟩ | ⟨k, hk, hbad, hgood, -⟩
  · have hlen : ds.length = cs.length := by rw [hs.2, List.length_map]
    exact .inl ⟨_, hexToBits_ok hs (by omega), by rw [length_flatMap_bitsN]; omega⟩
  · exact .inr ⟨k, hexToBits_bad h8 hk hbad hgood⟩

theorem hexToBits_portWidth_iff (h : HexOperand) : RaisesPortWidth (hexToBits h) ↔ HexOperandTooLong h := by
  refine raisesPortWidth_iff hexToBits_tooLong fun hn => ?_
  obtain ⟨cs, rfl, h8⟩ := exists_hexStr_of_not_tooLong hn
  rcases hexToBits_cases h8 with ⟨b, hb, -⟩ | ⟨k, hb⟩ <;> simp [hb]

theorem bitsToHex_portWidth_iff (a : BitsOperand) : RaisesPortWidth (bitsToHex a) ↔ BitsOperandTooLong a := by
  refine raisesPortWidth_iff bitsToHex_tooLong fun h => ?_
  obtain ⟨b, rfl, hb⟩ := exists_str_of_not_tooLong h
  by_cases h4 : b.length % 4 = 0
  · simp [bitsToHex_ok hb h4]
  · simp [bitsToHex_notNibble hb h4]

/-- H2D raises what H2B raises; the string H2B gives is never too long for B2D. -/
theorem hexToDecimal_portWidth_iff (h : HexOperand) (m : Mode) :
    RaisesPortWidth (hexToDecimal h m) ↔ HexOperandTooLong h := by
  refine raisesPortWidth_iff (fun hlong => hexToDecimal_of_error m (hexToBits_tooLong hlong)) fun hn => ?_
  obtain ⟨cs, rfl, h8⟩ := exists_hexStr_of_not_tooLong hn
  rcases hexToBits_cases h8 with ⟨b, hb, h32⟩ | ⟨k, hb⟩
  · rw [hexToDecimal_of_bits m hb, bitsToDecimal_portWidth_iff]
    exact fun hlong => Nat.not_lt.mpr h32 (hlong b rfl)
  · simp [hexToDecimal_of_error m hb]

/-- D2H of at most eight digits raises what D2B raises at four bits a digit, which is at most 32. -/
theorem decimalToHex_portWidth_iff (v : Int) (n : Nat) : RaisesPortWidth (decimalToHex v n) ↔ 8 < n := by
  refine raisesPortWidth_iff decimalToHex_portWidth fun h => ?_
  have hfits : ¬ RaisesPortWidth (decimalToBits v (4 * n)) := by
    rw [decimalToBits_portWidth_iff]; omega
  cases hb : decimalToBits v (4 * n) with
  | ok b => simp [decimalToHex_of_bits hb]
  | error e =>
    rw [decimalToHex_of_error (Nat.not_lt.mp h) hb]
    simpa [hb] using hfits

/-! A primitive's response reports PORT_WIDTH exactly when its result is that error. -/

section
variable {s t : State} {r : Response}

theorem answerBits_reportsPortWidth_iff {x : Except CmdError BitString} (hx : s.answerBits x = .next t)
    (hresp : t.resp = some r) : r.ReportsPortWidth ↔ RaisesPortWidth x := by
  cases x with
  | ok b => cases hx; cases hresp; exact ok_reportsPortWidth_iff b ⟨rfl, rfl, rfl⟩
  | error e => cases hx; cases hresp; exact error_reportsPortWidth_iff e s.free

theorem answerInt_reportsPortWidth_iff {x : Except CmdError Int} (hx : s.answerInt x = .next t)
    (hresp : t.resp = some r) : r.ReportsPortWidth ↔ RaisesPortWidth x := by
  cases x with
  | ok v => cases hx; cases hresp; exact ok_reportsPortWidth_iff v ⟨rfl, rfl, rfl⟩
  | error e => cases hx; cases hresp; exact error_reportsPortWidth_iff e s.free

theorem answerHex_reportsPortWidth_iff {x : Except CmdError (List HexChar)} (hx : s.answerHex x = .next t)
    (hresp : t.resp = some r) : r.ReportsPortWidth ↔ RaisesPortWidth x := by
  cases x with
  | ok cs => cases hx; cases hresp; exact ok_reportsPortWidth_iff cs ⟨rfl, rfl, rfl⟩
  | error e => cases hx; cases hresp; exact error_reportsPortWidth_iff e s.free

/-- A primitive reports PORT_WIDTH for exactly the operands its ports are too narrow for. -/
theorem primitive_reportsPortWidth_iff {i : Instr} (hi : isPrimitive i = true) (hexec : exec i s = .next t)
    (hresp : t.resp = some r) : r.ReportsPortWidth ↔ PortTooNarrow i := by
  cases i
  case ones a => exact (answerBits_reportsPortWidth_iff hexec hresp).trans (onesComplement_portWidth_iff a)
  case twos a => exact (answerBits_reportsPortWidth_iff hexec hresp).trans (twosComplement_portWidth_iff a)
  case bext a w x => exact (answerBits_reportsPortWidth_iff hexec hresp).trans (bitExtend_portWidth_iff a w x)
  case d2b v w => exact (answerBits_reportsPortWidth_iff hexec hresp).trans (decimalToBits_portWidth_iff v w)
  case b2d a m => exact (answerInt_reportsPortWidth_iff hexec hresp).trans (bitsToDecimal_portWidth_iff a m)
  case h2b h => exact (answerBits_reportsPortWidth_iff hexec hresp).trans (hexToBits_portWidth_iff h)
  case b2h a => exact (answerHex_reportsPortWidth_iff hexec hresp).trans (bitsToHex_portWidth_iff a)
  case h2d h m => exact (answerInt_reportsPortWidth_iff hexec hresp).trans (hexToDecimal_portWidth_iff h m)
  case d2h v n => exact (answerHex_reportsPortWidth_iff hexec hresp).trans (decimalToHex_portWidth_iff v n)
  all_goals cases hi

end

end Machine

end Sys2Proof
end

section
/-! PROOFS. The statements of 60_exceptions.md. -/

namespace Sys2Proof

open Machine

/-- Settles O38: a success reports no error, and the shared error answer does to the register what R208 says. -/
theorem errorsLeaveInvalidOrUnchanged : Obligations.ErrorsLeaveInvalidOrUnchanged := by
  intro i s t r hexec hresp herr
  rcases response_cases hexec hresp with hok | ⟨e, -, rfl, -⟩
  · exact absurd hok.1 herr
  · exact ⟨fun hstarts => by rw [hstarts]; rfl, fun hkeeps => by rw [hkeeps]; rfl⟩

/-- Settles O40: a success reports zeros, and an error its codes and, where its kind of command records one, an index. -/
theorem responseFieldsStayInRange : Obligations.ResponseFieldsStayInRange := by
  intro i s t r hexec hresp
  rcases response_cases hexec hresp with ⟨herr, hsub, hinfo⟩ | ⟨e, he, -, rfl⟩
  · exact ⟨by simp [herr], fun _ => hsub, by simp [hsub], fun h => absurd hinfo h⟩
  · exact ⟨e.err_le, CmdError.sub_eq_zero, e.sub_le, he.info_cases⟩

/-- Settles O41: a primitive reports PORT_WIDTH for exactly the operands of R203; no other command reports it, and none
has such an operand. -/
theorem portWidthIsReportedExactly : Obligations.PortWidthIsReportedExactly := by
  intro i s t r hexec hresp
  change r.ReportsPortWidth ↔ PortTooNarrow i
  by_cases hi : isPrimitive i = true
  · exact primitive_reportsPortWidth_iff hi hexec hresp
  refine iff_of_false (fun hreports => ?_) (mt isPrimitive_of_portTooNarrow hi)
  rcases response_cases hexec hresp with hok | ⟨e, he, -, rfl⟩
  · exact hok.not_reportsPortWidth hreports
  · obtain ⟨k, rfl⟩ := (Response.error_reportsPortWidth_iff e s.free).mp hreports
    exact hi he.isPrimitive_of_portWidth

end Sys2Proof
end

section
/-! SUPPORT. What a step does with the reset input (70_reset_and_hazards.md rule R230). -/

namespace Sys2Proof.Machine

/-- The reset input is what is presented, whatever requests stand beside it. -/
theorem presented_of_reset {s : State} {rs : List Request} {rest : List Input} (h : s.inputs = ⟨true, rs⟩ :: rest) :
    s.presented = .reset := by
  rw [State.presented, h]

theorem step_of_reset {s : State} (h : s.presented = .reset) : step s = .next s.consume.takeReset := by
  rw [step, h]

end Sys2Proof.Machine
end

section
/-! PROOFS. The statements of 70_reset_and_hazards.md. -/

namespace Sys2Proof

open Machine

/-- Settles O7: the step takes the reset, which draws an EMPTY register and answers nothing. -/
theorem resetInputEmptiesTheRegister : Obligations.ResetInputEmptiesTheRegister := by
  intro s rs rest h
  have hstep : step s = .next s.consume.takeReset := step_of_reset (presented_of_reset h)
  have hempty : s.consume.takeReset.iv.status = .empty := by rw [State.takeReset_iv, IV.undefinedBut_status]
  exact ⟨s.consume.takeReset, hstep, hempty, s.consume.takeReset_resp⟩

/-- Settles O37: a success and the shared error answer each leave a response, and neither touches the inputs. -/
theorem everyCommandCompletes : Obligations.EveryCommandCompletes := by
  intro i s
  rcases exec_outcome i s with ⟨v, r, hexec, -⟩ | ⟨e, -, hexec⟩
  · exact ⟨s.finish v r, r, hexec, s.finish_resp v r, s.finish_inputs v r⟩
  · exact ⟨s.takeError e (startsValue i), .error e s.free, hexec, s.takeError_resp e _, s.takeError_inputs e _⟩

end Sys2Proof
end
